-- ==== Sys2Proof/Word.lean ====
section
/-! DEFINITION. The machine's plainest data: 32-bit words (00_scope.md R7, R10), 2-bit trit codes
(30_encoding.md R70) and trits (00_scope.md R8, 40_ternary_codec.md R100). -/

namespace Sys2Proof

/-- A register or data word: 32 bits (R7). -/
abbrev Word := BitVec 32

/-- The 2-bit code held by one cell of a trit buffer (R21, R70). It may be the reserved `0b10`. -/
abbrev Code := BitVec 2

/-- A trit: one of `-1`, `0`, `+1` (R8, R100). -/
inductive Trit where
  | minus
  | zero
  | plus
  deriving DecidableEq, Repr

end Sys2Proof
end

