-- ==== Sys2Proof/Config.lean ====
section
/-! DEFINITION. The configuration record of 00_scope.md R6 and the values the spec leaves open. -/

namespace Sys2Proof

/-- The configuration `CFG` (R6): fixed when the block is built, written by no command and no host
access. The state carries it as a constant (assumption 1), so a claim about every state is a claim
about every build. -/
structure Cfg where
  padTrit   : Trit
  frameTrit : Trit
  nMax      : Nat
  pMax      : Nat
  deriving DecidableEq, Repr

namespace Config

/-- `N_MAX - 8`, OPEN (R6 bounds `N_MAX` by 8 and `2^20`); no proof can see its value (assumption 2,
DESIGN CHOICE). -/
opaque nMaxOver : Fin 1048569

/-- `P_MAX - 1`, OPEN (R6 bounds `P_MAX` by 1 and `2^20`); no proof can see its value (assumption 2,
DESIGN CHOICE). -/
opaque pMaxOver : Fin 1048576

/-- The configuration of the machine right after `State.reset`: the default pad and frame trits of
R6, and capacities of which only R6's bounds are known. -/
def cfg : Cfg where
  padTrit := .zero
  frameTrit := .plus
  nMax := 8 + nMaxOver.val
  pMax := 1 + pMaxOver.val

/-- What the host's `mov_ra j, n` writes into the cells at and above `n` of the last word it writes;
30_encoding.md R78 does not say, so it is a free value (assumption 11, DESIGN CHOICE). -/
opaque sliceFill : Nat → Code

end Config

end Sys2Proof
end

