-- ==== Sys2Proof/Machine/HostEvent.lean ====
section
/-! DEFINITION. What the host can do to the block in one step: the two accesses of 20_memory.md R52
and the reset of 70_reset_and_hazards.md R230. -/

namespace Sys2Proof.Machine

/-- One event of the host. Addresses are word addresses (20_memory.md R50). -/
inductive HostEvent where
  /-- `HostRead(a)` (R52). -/
  | read (a : Word)
  /-- `HostWrite(a, w)` (R52); a write of `CMD` executes (R27). -/
  | write (a w : Word)
  /-- The reset signal, which is neither an access nor a command (R230). -/
  | reset
  deriving DecidableEq, Repr

end Sys2Proof.Machine
end

