-- ==== Sys2Proof/Syntax.lean ====
section
/-! DEFINITION. The commands of the block: one constructor per row of spec/opcode_table.json
(30_encoding.md R73). -/

namespace Sys2Proof

/-- The ten commands (00_scope.md R2). No command has an operand field (30_encoding.md R72): every
operand is a register named in the command's rule. -/
inductive Instr where
  | enc4
  | dec4
  | pad
  | unpad
  | encodeCore
  | decodeCore
  | frame
  | unframe
  | capply
  | cremove
  deriving DecidableEq, Repr

end Sys2Proof
end

