-- ==== Sys2Proof/WellFormed.lean ====
section
/-! DEFINITION. Well-formedness: of a configuration (00_scope.md R6), of a command word (30_encoding.md
R72 to R74), of a command, and of a host event (20_memory.md R51, R52). -/

namespace Sys2Proof

/-- R6: `8 <= N_MAX <= 2^20` and `1 <= P_MAX <= 2^20`. -/
def Cfg.wf (c : Cfg) : Bool :=
  decide (8 ≤ c.nMax) && decide (c.nMax ≤ 1048576) && decide (1 ≤ c.pMax) && decide (c.pMax ≤ 1048576)

/-- A legal `CMD` word as a number: `RSV` is 0 and `OP` is `0x1` to `0xA` (R72 to R74). -/
def cmdWordWf (w : Word) : Bool :=
  decide (w.toNat / 16 = 0) && decide (1 ≤ w.toNat % 16) && decide (w.toNat % 16 ≤ 10)

/-- A command has no field, so there is nothing in it that could be ill formed (R72). -/
def Instr.wf : Instr → Bool
  | .enc4 => true
  | .dec4 => true
  | .pad => true
  | .unpad => true
  | .encodeCore => true
  | .decodeCore => true
  | .frame => true
  | .unframe => true
  | .capply => true
  | .cremove => true

/-- How many data words a window over `cap` cells has: `ceil(cap / 16)` (R51). -/
def windowWords (cap : Nat) : Nat := (cap + 15) / 16

/-- The addresses of R51 as numbers: the eleven registers and the three data windows. Everything else
is reserved or unmapped. -/
def addrMapped (c : Cfg) (n : Nat) : Bool :=
  decide (n ≤ 0xA) ||
  (decide (0x10000 ≤ n) && decide (n < 0x10000 + windowWords c.nMax)) ||
  (decide (0x20000 ≤ n) && decide (n < 0x20000 + windowWords c.pMax)) ||
  (decide (0x30000 ≤ n) && decide (n < 0x30000 + windowWords c.nMax))

/-- The accesses R52 gives a meaning to: at an address of the map, and not a length above its buffer's
capacity (`A_LEN` is word address 5, `B_LEN` is 6). A reset is always admitted (R230). -/
def hostEventWf (c : Cfg) : Machine.HostEvent → Bool
  | .read a => addrMapped c a.toNat
  | .write a w =>
    addrMapped c a.toNat && !(decide (a.toNat = 5) && decide (c.nMax < w.toNat)) &&
      !(decide (a.toNat = 6) && decide (c.pMax < w.toNat))
  | .reset => true

end Sys2Proof
end

