-- ==== Sys2Proof/Decode.lean ====
section
/-! DEFINITION. Encodings: the trit codes of 30_encoding.md R70 and the command words of R72 to R74, each
read and written from the spec's tables. -/

namespace Sys2Proof

/-! ## Trit codes (R70) -/

/-- `code(t)` (R12, R70): the trit's 2-bit two's-complement value. -/
def tritCode : Trit → Code
  | .zero => 0b00#2
  | .plus => 0b01#2
  | .minus => 0b11#2

/-- `val(c)` (R12, R70); none for the reserved code `0b10`, which names no trit (R71). -/
def codeTrit (c : Code) : Option Trit :=
  if c = 0b00#2 then some .zero
  else if c = 0b01#2 then some .plus
  else if c = 0b11#2 then some .minus
  else none

/-- `valid(c)` (R12): the code names a trit. -/
def codeValid (c : Code) : Bool := (codeTrit c).isSome

/-! ## Command words (R72 to R74) -/

/-- Why a word is no command (R74). Either way the block reports `ILLEGAL_COMMAND`. -/
inductive DecodeError where
  /-- `RSV`, bits `[31:4]`, is not 0. -/
  | reservedBits
  /-- `RSV` is 0 and `OP`, bits `[3:0]`, is `0x0` or `0xB` to `0xF`. -/
  | reservedOpcode
  deriving DecidableEq, Repr

/-- The field `OP = CMD[3:0]` (R72). -/
def opField (w : Word) : BitVec 4 := w.extractLsb' 0 4

/-- The field `RSV = CMD[31:4]` (R72). -/
def rsvField (w : Word) : BitVec 28 := w.extractLsb' 4 28

/-- The opcode map of R73; none for the reserved opcodes. -/
def opcodeInstr (op : BitVec 4) : Option Instr :=
  match op.toNat with
  | 1 => some .enc4
  | 2 => some .dec4
  | 3 => some .pad
  | 4 => some .unpad
  | 5 => some .encodeCore
  | 6 => some .decodeCore
  | 7 => some .frame
  | 8 => some .unframe
  | 9 => some .capply
  | 10 => some .cremove
  | _ => none

/-- `decode(w)` of R74: total, rejecting a reserved word by name. -/
def decode (w : Word) : Except DecodeError Instr :=
  if rsvField w ≠ 0 then .error .reservedBits
  else
    match opcodeInstr (opField w) with
    | some i => .ok i
    | none => .error .reservedOpcode

/-- The command word of R73. -/
def encode : Instr → Word
  | .enc4 => 0x00000001#32
  | .dec4 => 0x00000002#32
  | .pad => 0x00000003#32
  | .unpad => 0x00000004#32
  | .encodeCore => 0x00000005#32
  | .decodeCore => 0x00000006#32
  | .frame => 0x00000007#32
  | .unframe => 0x00000008#32
  | .capply => 0x00000009#32
  | .cremove => 0x0000000A#32

/-- A table row's bits as the command word they are written to `CMD` as: a command is one 32-bit word and
bit 0 of the table is bit 0 of the word, so there is nothing to lay out (R54, R72; assumption 13). -/
def tableWord (nbits w : Nat) : Word := BitVec.ofNat 32 (w % 2 ^ nbits)

/-- The command the decoder reads from a table word; none where it refuses. -/
def decodeTableWord (nbits w : Nat) : Option Instr :=
  match decode (tableWord nbits w) with
  | .ok i => some i
  | .error _ => none

end Sys2Proof
end

