-- ==== Sys2Proof/Machine/State.lean ====
section
/-! DEFINITION. The state of the block: the record of 10_state.md R20, the constant configuration it was
built with, and the host's side of the interface; and its reset. -/

namespace Sys2Proof.Machine

/-- One trit buffer, `code[cap]` (R20, R21): cell `i` is element `i`, and the list is as long as the
buffer's capacity (assumption 9). -/
abbrev TritBuf := List Code

/-- The state. The first thirteen fields are R20's record; `cfg` is the constant configuration of R6
(assumption 1); `pending` and `readLog` are the model's own fields for the host (assumptions 3 and 4). -/
structure State where
  /-- `CMD` (R27): the last word written to it. -/
  cmd        : Word
  /-- `STATUS.VALID` (R28). -/
  valid      : Bool
  /-- `STATUS.CODE` (R28, R201). -/
  code       : BitVec 4
  /-- `STATUS.ERR_OPERAND` (R28): true is 1, the error concerns `B`. -/
  errOperand : Bool
  /-- `ERR_OFFSET` (R29). -/
  errOffset  : Word
  /-- `VAL_IN` (R25). -/
  valIn      : Word
  /-- `R_VAL` (R26). -/
  rVal       : Word
  /-- `A_LEN` (R22). -/
  aLen       : Word
  /-- `A` (R22). -/
  a          : TritBuf
  /-- `B_LEN` (R23). -/
  bLen       : Word
  /-- `B` (R23). -/
  b          : TritBuf
  /-- `R_LEN` (R24). -/
  rLen       : Word
  /-- `R` (R24). -/
  r          : TritBuf
  /-- The configuration of the build (R6): constant. -/
  cfg        : Cfg
  /-- The host events not yet performed, the next one first (R58). -/
  pending    : List HostEvent
  /-- The words the host's reads returned, oldest first (R52). -/
  readLog    : List Word
  deriving DecidableEq, Repr

/-- Why a step stops with a fault: never. The block has no trap (R207), and every command word and every
admitted access has a defined outcome (93_implementation_defined.md section 2); assumption 8. Safe. -/
inductive Fault where
  deriving DecidableEq, Repr

/-- Why a step is refused. -/
inductive Refusal where
  /-- Raised by `exec` for a command without a meaning yet (none is). Safe. -/
  | notModelled (mnemonic : String)
  /-- Raised by a host access at an address that R51 reserves or does not map (R52: "refused means the
  model gives the access no meaning"). Safe. -/
  | unmappedAddress (a : Word)
  /-- Raised by a host write of `A_LEN` above `N_MAX` or of `B_LEN` above `P_MAX` (R52). Safe. -/
  | lengthAboveCapacity (a w : Word)
  deriving DecidableEq, Repr

/-- How one step, or one command, ends. -/
abbrev Result := Host.Outcome State Fault Refusal

/-- The block built with configuration `c`, right after reset: R34's values; the host has nothing pending
and has read nothing. -/
def State.resetOf (c : Cfg) : State where
  cmd := 0
  valid := false
  code := 0
  errOperand := false
  errOffset := 0
  valIn := 0
  rVal := 0
  aLen := 0
  a := List.replicate c.nMax 0
  bLen := 0
  b := List.replicate c.pMax 0
  rLen := 0
  r := List.replicate c.nMax 0
  cfg := c
  pending := []
  readLog := []

/-- The machine right after reset (R34, R230), in the default configuration with unknown capacities
(assumptions 1 and 2). -/
def State.reset : State := State.resetOf Config.cfg

end Sys2Proof.Machine
end

