-- ==== Sys2Proof/Machine/Flags.lean ====
section
/-! DEFINITION. The error codes of 60_exceptions.md R201 and the packed words `STATUS` (10_state.md R28) and
`CFG` (R30). -/

namespace Sys2Proof.Machine

/-- The errors a command can report (R201). -/
inductive ErrCode where
  | invalidSymbol
  | range
  | frameLength
  | paddingMismatch
  | syncLoss
  | emptyPattern
  | illegalCommand
  deriving DecidableEq, Repr

/-- The number of an error in `CODE` (R201); `OK` is 0. -/
def errNumber : ErrCode → BitVec 4
  | .invalidSymbol => 1
  | .range => 2
  | .frameLength => 3
  | .paddingMismatch => 4
  | .syncLoss => 5
  | .emptyPattern => 6
  | .illegalCommand => 7

/-- What a read of `STATUS` returns (R28): `CODE` in `[3:0]`, `VALID` in `[8]`, `ERR_OPERAND` in `[9]`,
zeros elsewhere. -/
def statusWord (s : State) : Word :=
  0#22 ++ BitVec.ofBool s.errOperand ++ BitVec.ofBool s.valid ++ 0#4 ++ s.code

/-- What a read of `CFG` returns (R30): the code of `PAD_TRIT` in `[1:0]`, of `FRAME_TRIT` in `[3:2]`. -/
def cfgWord (c : Cfg) : Word := 0#28 ++ tritCode c.frameTrit ++ tritCode c.padTrit

/-- What a read of `CAP_N` returns (R31). -/
def capNWord (c : Cfg) : Word := BitVec.ofNat 32 c.nMax

/-- What a read of `CAP_P` returns (R31). -/
def capPWord (c : Cfg) : Word := BitVec.ofNat 32 c.pMax

end Sys2Proof.Machine
end

