-- ==== Sys2Proof/Machine/Trits.lean ====
section
/-! DEFINITION. The functions on trits and trit sequences that the commands compute: 40_ternary_codec.md
R100 to R105, 41_tribble_padder.md R130, 42_frame_wrapper.md R160, 43_carrier.md R180 and R181. -/

namespace Sys2Proof.Machine

/-- The integer a trit is (R8). -/
def tritInt : Trit → Int
  | .minus => -1
  | .zero => 0
  | .plus => 1

/-- The trit of an integer in `{-1, 0, 1}`; callers have reduced their result into that set. -/
def intTrit (n : Int) : Trit :=
  if n < 0 then .minus else if n = 0 then .zero else .plus

/-- `neg(t) = -t` (R100). -/
def negTrit : Trit → Trit
  | .minus => .plus
  | .zero => .zero
  | .plus => .minus

/-- A raw sum in `[-2, 2]` brought back into `{-1, 0, 1}` as R101 says. -/
def wrapSum (s : Int) : Int :=
  let s := if s > 1 then s - 3 else s
  if s < -1 then s + 3 else s

/-- `add_mod3(a, b)` (R101). -/
def addMod3 (a b : Trit) : Trit := intTrit (wrapSum (tritInt a + tritInt b))

/-- `sub_mod3(a, b) = add_mod3(a, neg(b))` (R102). -/
def subMod3 (a b : Trit) : Trit := addMod3 a (negTrit b)

/-- One step of R104: the digit `((n + 1) mod 3) - 1`, with the floor `mod` of R9. -/
def balDigit (n : Int) : Int := (n + 1) % 3 - 1

/-- `k` rounds of R104's loop from `n`, least significant digit first. -/
def balDigitsFrom : Nat → Int → List Trit
  | 0, _ => []
  | k + 1, n => intTrit (balDigit n) :: balDigitsFrom k ((n - balDigit n) / 3)

/-- `bal_digits(s)` (R104): the four balanced-ternary digits of `s`. -/
def balDigits (s : Int) : List Trit := balDigitsFrom 4 s

/-- The sum of `d[i] · 3^(k + i)` over a sequence. -/
def balValueFrom : Nat → List Trit → Int
  | _, [] => 0
  | k, t :: d => tritInt t * 3 ^ k + balValueFrom (k + 1) d

/-- `bal_value(d)` (R105): the sum of `d[k] · 3^k`. -/
def balValue (d : List Trit) : Int := balValueFrom 0 d

/-- `pad(c)` (R130): `PAD_TRIT` on both sides. -/
def padTrits (cfg : Cfg) (c : List Trit) : List Trit := [cfg.padTrit] ++ c ++ [cfg.padTrit]

/-- `frame(t)` (R160): `FRAME_TRIT` on both sides. -/
def frameTrits (cfg : Cfg) (t : List Trit) : List Trit := [cfg.frameTrit] ++ t ++ [cfg.frameTrit]

/-- `p[i mod |p|]` (R180). `p` is not empty where a command uses this: it has raised `EMPTY_PATTERN`
before (assumption 10). -/
def patternTrit (p : List Trit) (i : Nat) : Trit := (p[i % p.length]?).getD .zero

/-- The positionwise combination that R180 and R181 share; the phase starts at 0 (R33). -/
def overlayWith (f : Trit → Trit → Trit) (s p : List Trit) : List Trit :=
  s.mapIdx fun i t => f t (patternTrit p i)

/-- `overlay(s, p)` (R180). -/
def overlay (s p : List Trit) : List Trit := overlayWith addMod3 s p

/-- `unoverlay(s, p)` (R181). -/
def unoverlay (s p : List Trit) : List Trit := overlayWith subMod3 s p

end Sys2Proof.Machine
end

