-- ==== Sys2Proof/Machine/Ops.lean ====
section
/-! DEFINITION. The named operations over the registers and the trit buffers, and how a command ends: with
an error report (60_exceptions.md R200) or with a result and the success report (R205). -/

namespace Sys2Proof.Machine

/-! ## Cells and data words -/

/-- Cell `i` of a buffer; `0b00` at or above its capacity (R53). -/
def cell (buf : TritBuf) (i : Nat) : Code := buf.getD i 0

/-- Write the codes of a trit sequence into the cells from `i` on (R24); a cell at or above the capacity
does not exist. -/
def writeTritsFrom (buf : TritBuf) (i : Nat) : List Trit → TritBuf
  | [] => buf
  | t :: ts => writeTritsFrom (buf.set i (tritCode t)) (i + 1) ts

/-- Write the codes of a trit sequence into the cells from 0 on; the other cells stay (R24). -/
def writeTrits (buf : TritBuf) (ts : List Trit) : TritBuf := writeTritsFrom buf 0 ts

/-- The number whose base-4 digits are the `n` cells from `i` on, cell `i` the least significant (R53). -/
def packFrom (buf : TritBuf) (i : Nat) : Nat → Nat
  | 0 => 0
  | n + 1 => (cell buf i).toNat + 4 * packFrom buf (i + 1) n

/-- Data word `k` of a window (R53): cells `16k` to `16k + 15`, cell `16k + j` in bits `[2j+1 : 2j]`. -/
def packWord (buf : TritBuf) (k : Nat) : Word := BitVec.ofNat 32 (packFrom buf (16 * k) 16)

/-- Bits `[2j+1 : 2j]` of a data word (R53). -/
def wordCode (w : Word) (j : Nat) : Code := w.extractLsb' (2 * j) 2

/-- A host write of data word `k` (R52): cell `16k + j` gets code `j` of the word, stored as it is; a slot
beyond the capacity is ignored (R53), and no other cell changes. -/
def storeWord (buf : TritBuf) (k : Nat) (w : Word) : TritBuf :=
  buf.mapIdx fun i c => if i / 16 = k then wordCode w (i % 16) else c

/-! ## Updates of the state -/

/-- The four report fields, written together by every command (R28, R29, R200, R205). -/
def State.report (valid : Bool) (code : BitVec 4) (opnd : Bool) (off : Word) (s : State) : State :=
  { s with valid := valid, code := code, errOperand := opnd, errOffset := off }

/-- A trit-sequence result: `R[i] <- code(ts[i])` and `R_LEN <- zext_32(|ts|)` (R24). -/
def State.putVec (ts : List Trit) (s : State) : State :=
  { s with r := writeTrits s.r ts, rLen := BitVec.ofNat 32 ts.length }

/-- A core-value result: `R_VAL <- zext_32(v)` (R26, R75), with `v` in `[0, 80]`. -/
def State.putVal (v : Int) (s : State) : State := { s with rVal := BitVec.ofNat 32 v.toNat }

/-- A host write of `CMD` stores the word (R27). -/
def State.putCmd (w : Word) (s : State) : State := { s with cmd := w }

/-- A host write of `VAL_IN` (R25). -/
def State.putValIn (w : Word) (s : State) : State := { s with valIn := w }

/-- A host write of `A_LEN` (R22). -/
def State.putALen (w : Word) (s : State) : State := { s with aLen := w }

/-- A host write of `B_LEN` (R23). -/
def State.putBLen (w : Word) (s : State) : State := { s with bLen := w }

/-- A host write into `A` (R22). -/
def State.putA (buf : TritBuf) (s : State) : State := { s with a := buf }

/-- A host write into `B` (R23). -/
def State.putB (buf : TritBuf) (s : State) : State := { s with b := buf }

/-- The next event is taken off the host's queue (assumption 3). -/
def State.putPending (es : List HostEvent) (s : State) : State := { s with pending := es }

/-- A host read returns a word to the host and changes no state of the block (R52, assumption 4). -/
def State.logRead (w : Word) (s : State) : State := { s with readLog := s.readLog ++ [w] }

/-! ## How a command ends -/

/-- `raise E(off, opnd)` (R11, R200): the command ends with the error report and writes nothing else. This
is all there is to "taking an exception" here: nothing is saved, no mode changes and there is nothing to
return to (R207), the next command's report replaces this one. -/
def raise (e : ErrCode) (off : Word) (opnd : Bool) (s : State) : Result :=
  .next (s.report false (errNumber e) opnd off)

/-- `complete_vec(ts)` (R11, R205): the result in `R` and `R_LEN`, and the success report. -/
def completeVec (ts : List Trit) (s : State) : Result :=
  .next ((s.putVec ts).report true 0 false 0)

/-- `complete_val(v)` (R11, R205): the result in `R_VAL`, and the success report. -/
def completeVal (v : Int) (s : State) : Result :=
  .next ((s.putVal v).report true 0 false 0)

/-! ## Reset -/

/-- The host's reset signal (R230): every field of R20 at once to its value of R34; the configuration stays
(R34), and so does what is the host's own, its queue and what it has read (assumption 7). -/
def hostReset (s : State) : State :=
  { State.resetOf s.cfg with pending := s.pending, readLog := s.readLog }

end Sys2Proof.Machine
end

