-- ==== Sys2Proof/Machine/Operands.lean ====
section
/-! DEFINITION. Operand assembly (30_encoding.md R75) and the checks the commands share, in the order of
60_exceptions.md R202. -/

namespace Sys2Proof.Machine

/-- `first_invalid(X, n)` (R12): the lowest position below `n` whose cell holds the reserved code. -/
def firstInvalid (buf : TritBuf) (n : Nat) : Option Nat :=
  (List.range n).find? fun i => !codeValid (cell buf i)

/-- The trit sequence in the first `n` cells (`A_seq`, `B_seq` of R11). It is used only where
`firstInvalid buf n` is none, where every cell gives one trit. -/
def tritSeq (buf : TritBuf) (n : Nat) : List Trit :=
  (List.range n).filterMap fun i => codeTrit (cell buf i)

/-- A trit-sequence operand of length `n`: `INVALID_SYMBOL` at its first reserved code (R71, R203), else `k`
of the sequence. `opnd` is false for `A` and true for `B`. -/
def withTrits (buf : TritBuf) (n : Nat) (opnd : Bool) (s : State) (k : List Trit → Result) : Result :=
  match firstInvalid buf n with
  | some i => raise .invalidSymbol (BitVec.ofNat 32 i) opnd s
  | none => k (tritSeq buf n)

/-- A fixed-length operand in `A`: `FRAME_LENGTH` with the wrong length unless `A_LEN = n`, then the symbols
(R202, R203). -/
def withUnit (n : Nat) (s : State) (k : List Trit → Result) : Result :=
  if s.aLen.toNat ≠ n then raise .frameLength s.aLen false s else withTrits s.a n false s k

/-- The boundary check of `UNPAD`, `DECODE_CORE` and `UNFRAME`: position 0, then position `last`, must hold
the boundary trit (R202 step 5). -/
def withBoundary (e : ErrCode) (boundary : Trit) (last : Nat) (ts : List Trit) (s : State)
    (k : Unit → Result) : Result :=
  if ts[0]? ≠ some boundary then raise e 0 false s
  else if ts[last]? ≠ some boundary then raise e (BitVec.ofNat 32 last) false s
  else k ()

/-- The operand of `ENC4` and `ENCODE_CORE`: `v = sint32(VAL_IN)`, `RANGE` outside `[0, 80]` (R106, R133). -/
def withCoreValue (s : State) (k : Int → Result) : Result :=
  if s.valIn.toInt < 0 ∨ s.valIn.toInt > 80 then raise .range 0 false s else k s.valIn.toInt

/-- The operands of `CAPPLY` and `CREMOVE`: `EMPTY_PATTERN`, then the symbols of the stream in `A`, then those
of the pattern in `B`, used or not (R182, R183, R202). -/
def withCarrier (s : State) (k : List Trit → List Trit → Result) : Result :=
  if s.bLen.toNat = 0 then raise .emptyPattern 0 true s
  else
    withTrits s.a s.aLen.toNat false s fun stream =>
      withTrits s.b s.bLen.toNat true s fun pattern => k stream pattern

/-- `t[1..n]` of a sequence. -/
def interior (n : Nat) (ts : List Trit) : List Trit := (ts.drop 1).take n

end Sys2Proof.Machine
end

