-- ==== Sys2Proof/Machine/Carrier.lean ====
section
/-! DEFINITION. The carrier commands of 43_carrier.md: `CAPPLY` and `CREMOVE`. -/

namespace Sys2Proof.Machine

/-- `CAPPLY` (R182): overlay the pattern in `B` on the stream in `A`. -/
def execCapply (s : State) : Result :=
  withCarrier s fun stream pattern => completeVec (overlay stream pattern) s

/-- `CREMOVE` (R183): remove the pattern in `B` from the stream in `A`. -/
def execCremove (s : State) : Result :=
  withCarrier s fun stream pattern => completeVec (unoverlay stream pattern) s

end Sys2Proof.Machine
end

