-- ==== Sys2Proof/Machine/Codec.lean ====
section
/-! DEFINITION. The conversion commands of 40_ternary_codec.md: `ENC4` and `DEC4`. -/

namespace Sys2Proof.Machine

/-- `ENC4` (R106): core value to four core trits. -/
def execEnc4 (s : State) : Result :=
  withCoreValue s fun v => completeVec (balDigits (v - 40)) s

/-- `DEC4` (R107): four core trits to core value. -/
def execDec4 (s : State) : Result :=
  withUnit 4 s fun ts => completeVal (balValue ts + 40) s

end Sys2Proof.Machine
end

