-- ==== Sys2Proof/Machine/Frame.lean ====
section
/-! DEFINITION. The frame commands of 42_frame_wrapper.md: `FRAME` and `UNFRAME`. -/

namespace Sys2Proof.Machine

/-- `FRAME` (R161): tribble to framed tribble; the pad trits are not checked. -/
def execFrame (s : State) : Result :=
  withUnit 6 s fun ts => completeVec (frameTrits s.cfg ts) s

/-- `UNFRAME` (R162): framed tribble to tribble, its frame trits checked. -/
def execUnframe (s : State) : Result :=
  withUnit 8 s fun ts =>
    withBoundary .syncLoss s.cfg.frameTrit 7 ts s fun _ => completeVec (interior 6 ts) s

end Sys2Proof.Machine
end

