-- ==== Sys2Proof/Machine/Tribble.lean ====
section
/-! DEFINITION. The tribble commands of 41_tribble_padder.md: `PAD`, `UNPAD`, `ENCODE_CORE`, `DECODE_CORE`. -/

namespace Sys2Proof.Machine

/-- `PAD` (R131): four core trits to a tribble. -/
def execPad (s : State) : Result :=
  withUnit 4 s fun ts => completeVec (padTrits s.cfg ts) s

/-- A tribble operand with its pad trits checked: what `UNPAD` and `DECODE_CORE` share (R132, R134). -/
def withTribble (s : State) (k : List Trit → Result) : Result :=
  withUnit 6 s fun ts =>
    withBoundary .paddingMismatch s.cfg.padTrit 5 ts s fun _ => k (interior 4 ts)

/-- `UNPAD` (R132): tribble to four core trits. -/
def execUnpad (s : State) : Result :=
  withTribble s fun core => completeVec core s

/-- `ENCODE_CORE` (R133): core value to tribble. -/
def execEncodeCore (s : State) : Result :=
  withCoreValue s fun v => completeVec (padTrits s.cfg (balDigits (v - 40))) s

/-- `DECODE_CORE` (R134): tribble to core value. -/
def execDecodeCore (s : State) : Result :=
  withTribble s fun core => completeVal (balValue core + 40) s

end Sys2Proof.Machine
end

