-- ==== Sys2Proof/Machine/Dispatch.lean ====
section
/-! DEFINITION. One arm per command (30_encoding.md R73), each a direct call of its meaning. -/

namespace Sys2Proof.Machine

def exec (i : Instr) (s : State) : Host.Outcome State Fault Refusal :=
  match i with
  | .enc4 => Sys2Proof.Machine.execEnc4 s
  | .dec4 => Sys2Proof.Machine.execDec4 s
  | .pad => Sys2Proof.Machine.execPad s
  | .unpad => Sys2Proof.Machine.execUnpad s
  | .encodeCore => Sys2Proof.Machine.execEncodeCore s
  | .decodeCore => Sys2Proof.Machine.execDecodeCore s
  | .frame => Sys2Proof.Machine.execFrame s
  | .unframe => Sys2Proof.Machine.execUnframe s
  | .capply => Sys2Proof.Machine.execCapply s
  | .cremove => Sys2Proof.Machine.execCremove s

end Sys2Proof.Machine
end

