-- ==== Sys2Proof/Machine/HostPort.lean ====
section
/-! DEFINITION. The host's accesses: the register map (20_memory.md R51), `HostRead` and `HostWrite` (R52), the
write of `CMD` that runs a command (10_state.md R27), and one host event. -/

namespace Sys2Proof.Machine

/-- The registers and data words of the map (R51). -/
inductive Reg where
  | cmd
  | status
  | errOffset
  | valIn
  | rVal
  | aLen
  | bLen
  | rLen
  | cfg
  | capN
  | capP
  | aData (k : Nat)
  | bData (k : Nat)
  | rData (k : Nat)
  deriving DecidableEq, Repr

/-- The three data windows of R51; none for an address that is reserved or not mapped. -/
def windowAt (c : Cfg) (n : Nat) : Option Reg :=
  if 0x10000 ≤ n ∧ n < 0x10000 + windowWords c.nMax then some (.aData (n - 0x10000))
  else if 0x20000 ≤ n ∧ n < 0x20000 + windowWords c.pMax then some (.bData (n - 0x20000))
  else if 0x30000 ≤ n ∧ n < 0x30000 + windowWords c.nMax then some (.rData (n - 0x30000))
  else none

/-- The register at a word address (R51). -/
def regAt (c : Cfg) (a : Word) : Option Reg :=
  match a.toNat with
  | 0x0 => some .cmd
  | 0x1 => some .status
  | 0x2 => some .errOffset
  | 0x3 => some .valIn
  | 0x4 => some .rVal
  | 0x5 => some .aLen
  | 0x6 => some .bLen
  | 0x7 => some .rLen
  | 0x8 => some .cfg
  | 0x9 => some .capN
  | 0xA => some .capP
  | n => windowAt c n

/-- The word a register reads as (R27 to R31, R53). -/
def readReg (s : State) : Reg → Word
  | .cmd => s.cmd
  | .status => statusWord s
  | .errOffset => s.errOffset
  | .valIn => s.valIn
  | .rVal => s.rVal
  | .aLen => s.aLen
  | .bLen => s.bLen
  | .rLen => s.rLen
  | .cfg => cfgWord s.cfg
  | .capN => capNWord s.cfg
  | .capP => capPWord s.cfg
  | .aData k => packWord s.a k
  | .bData k => packWord s.b k
  | .rData k => packWord s.r k

/-- A write of `CMD` (R27, R52): the word is stored, then the command it selects runs, in the same step; an
illegal word is stored too and raises `ILLEGAL_COMMAND` (R74). -/
def issue (w : Word) (s : State) : Result :=
  match decode w with
  | .ok i => exec i (s.putCmd w)
  | .error _ => raise .illegalCommand 0 false (s.putCmd w)

/-- `HostRead(a)` (R52): the word goes to the host. -/
def hostRead (a : Word) (s : State) : Result :=
  match regAt s.cfg a with
  | none => .refused (.unmappedAddress a)
  | some reg => .next (s.logRead (readReg s reg))

/-- A host write to a mapped register (R52); a write to a read-only one is ignored. -/
def writeReg (a w : Word) (s : State) : Reg → Result
  | .cmd => issue w s
  | .status => .next s
  | .errOffset => .next s
  | .valIn => .next (s.putValIn w)
  | .rVal => .next s
  | .aLen =>
    if w.toNat > s.cfg.nMax then .refused (.lengthAboveCapacity a w) else .next (s.putALen w)
  | .bLen =>
    if w.toNat > s.cfg.pMax then .refused (.lengthAboveCapacity a w) else .next (s.putBLen w)
  | .rLen => .next s
  | .cfg => .next s
  | .capN => .next s
  | .capP => .next s
  | .aData k => .next (s.putA (storeWord s.a k w))
  | .bData k => .next (s.putB (storeWord s.b k w))
  | .rData _ => .next s

/-- `HostWrite(a, w)` (R52). -/
def hostWrite (a w : Word) (s : State) : Result :=
  match regAt s.cfg a with
  | none => .refused (.unmappedAddress a)
  | some reg => writeReg a w s reg

/-- One host event, performed whole (R52, R56, R230). -/
def hostEvent (e : HostEvent) (s : State) : Result :=
  match e with
  | .read a => hostRead a s
  | .write a w => hostWrite a w s
  | .reset => .next (hostReset s)

/-- One step of the machine: the host's next event is taken off the queue and performed (R58); with nothing
pending the block is idle and keeps its state (R231, assumption 5). -/
def stepHost (s : State) : Result :=
  match s.pending with
  | [] => .next s
  | e :: rest => hostEvent e (s.putPending rest)

/-- The host's next event is a write of the table row's word to `CMD` (assumption 6). -/
def queueCommand (s : State) (nbits w : Nat) : State :=
  s.putPending (.write 0 (tableWord nbits w) :: s.pending)

end Sys2Proof.Machine
end

