-- ==== Sys2Proof/Machine/Step.lean ====
section
/-! DEFINITION. The step function. The block has no program counter and fetches nothing (10_state.md R32,
20_memory.md R60): a step performs the host's next event. -/

namespace Sys2Proof.Machine

/-- One step (20_memory.md R52, R58). -/
def step (s : State) : Host.Outcome State Fault Refusal := stepHost s

/-- `s` with the write of one command word to `CMD` as the host's next event, ahead of what is pending
(assumption 6). -/
def State.withFetchWord (s : State) (nbits w : Nat) : State := queueCommand s nbits w

end Sys2Proof.Machine
end

