-- ==== Sys2Proof/Machine/HostProgram.lean ====
section
/-! DEFINITION. Host programs (30_encoding.md R76 to R78): the lines, and the accesses each expands to. They are
host software and change no rule of the block. -/

namespace Sys2Proof.Machine

/-- The assembler spelling of a command (R76). -/
def mnemonicText : Instr → String
  | .enc4 => "enc4"
  | .dec4 => "dec4"
  | .pad => "pad"
  | .unpad => "unpad"
  | .encodeCore => "encode_core"
  | .decodeCore => "decode_core"
  | .frame => "frame"
  | .unframe => "unframe"
  | .capply => "capply"
  | .cremove => "cremove"

/-- The names R51 gives: the eleven registers, and `A_DATA[k]`, `B_DATA[k]`, `R_DATA[k]` for `k` below the number of
words of their window. -/
def regNamed (c : Cfg) : Reg → Bool
  | .cmd => true
  | .status => true
  | .errOffset => true
  | .valIn => true
  | .rVal => true
  | .aLen => true
  | .bLen => true
  | .rLen => true
  | .cfg => true
  | .capN => true
  | .capP => true
  | .aData k => decide (k < windowWords c.nMax)
  | .bData k => decide (k < windowWords c.pMax)
  | .rData k => decide (k < windowWords c.nMax)

/-- The word address of a named register or data word (R51, R77). R51 gives no register of a data name past its
window's words; what this function answers there stands for nothing, since a line with such a name has no meaning
(`namedEvent`; assumption 19, DESIGN CHOICE). -/
def regAddr : Reg → Word
  | .cmd => 0x0
  | .status => 0x1
  | .errOffset => 0x2
  | .valIn => 0x3
  | .rVal => 0x4
  | .aLen => 0x5
  | .bLen => 0x6
  | .rLen => 0x7
  | .cfg => 0x8
  | .capN => 0x9
  | .capP => 0xA
  | .aData k => BitVec.ofNat 32 (0x10000 + k)
  | .bData k => BitVec.ofNat 32 (0x20000 + k)
  | .rData k => BitVec.ofNat 32 (0x30000 + k)

/-- One line of a host program (R77) or one pseudo-access (R78). -/
inductive HostLine where
  /-- `wr NAME, w`, `wr A_DATA[k], w`. -/
  | wr (reg : Reg) (w : Word)
  /-- `rd NAME`, `rd R_DATA[k]`. -/
  | rd (reg : Reg)
  /-- `<mnemonic>`. -/
  | command (i : Instr)
  /-- `cmd w`, for any word. -/
  | cmd (w : Word)
  /-- `wa "s"`. -/
  | wa (ts : List Trit)
  /-- `wb "s"`. -/
  | wb (ts : List Trit)
  /-- `wval v`; defined for the integers of a 32-bit two's-complement word (R10, assumption 18). -/
  | wval (v : Int)
  /-- `mov_ra`. -/
  | movRa
  /-- `mov_ra j, n`. -/
  | movRaSlice (j n : Nat)
  /-- `expect NAME = w`. -/
  | expect (reg : Reg) (w : Word)
  deriving DecidableEq, Repr

/-- The accesses of `wr <length register>, n` followed by `wr <data window>[k], <word k of buf>` for every
`k < ceil(n/16)` (R78). -/
def loadEvents (len : Reg) (data : Nat → Reg) (n : Nat) (buf : TritBuf) : List HostEvent :=
  .write (regAddr len) (BitVec.ofNat 32 n) ::
    (List.range (windowWords n)).map fun k => .write (regAddr (data k)) (packWord buf k)

/-- `pack_k(s)` (R78) is word `k` of the codes of `s`, `0b00` beyond its end. -/
def tritCodes (ts : List Trit) : TritBuf := ts.map tritCode

/-- `wa "s"` (R78). -/
def waEvents (ts : List Trit) : List HostEvent := loadEvents .aLen .aData ts.length (tritCodes ts)

/-- `wb "s"` (R78). -/
def wbEvents (ts : List Trit) : List HostEvent := loadEvents .bLen .bData ts.length (tritCodes ts)

/-- `mov_ra` (R78) from state `s`: the host writes back the words it has read; the reads return words of
`s`, since none of these accesses changes `R` or `R_LEN`. -/
def movRaEvents (s : State) : List HostEvent :=
  [.read (regAddr .rLen), .write (regAddr .aLen) s.rLen] ++
    (List.range (windowWords s.rLen.toNat)).flatMap fun k =>
      [.read (regAddr (.rData k)), .write (regAddr (.aData k)) (packWord s.r k)]

/-- The cells `mov_ra j, n` writes: `R[j .. j+n-1]`, and free values in the rest of the last word
(assumption 11). -/
def sliceCells (r : TritBuf) (j n : Nat) : TritBuf :=
  (List.range (16 * windowWords n)).map fun i => if i < n then cell r (j + i) else Config.sliceFill i

/-- The indexes of the data words that hold cells `j .. j+n-1`, in rising order: none for `n = 0`. -/
def wordsHolding (j n : Nat) : List Nat :=
  (List.range (windowWords (j + n))).filter fun k => decide (0 < n) && decide (j < 16 * k + 16)

/-- `mov_ra j, n` (R78) from state `s`: read the words that hold the cells, then write; defined only for
`j + n <= R_LEN` (assumption 11 for the order of the accesses). -/
def movRaSliceEvents (s : State) (j n : Nat) : Option (List HostEvent) :=
  if j + n ≤ s.rLen.toNat then
    some ((wordsHolding j n).map (fun k => .read (regAddr (.rData k))) ++
      loadEvents .aLen .aData n (sliceCells s.r j n))
  else none

/-- The one access of a line that names a register (R77); none where R51 gives no register of that name
(assumption 19, DESIGN CHOICE). -/
def namedEvent (c : Cfg) (reg : Reg) (e : HostEvent) : Option (List HostEvent) :=
  if regNamed c reg then some [e] else none

/-- What a line expands to when it begins in state `s`; none where R51, R77 and R78 give it no meaning. -/
def lineEvents (s : State) : HostLine → Option (List HostEvent)
  | .wr reg w => namedEvent s.cfg reg (.write (regAddr reg) w)
  | .rd reg => namedEvent s.cfg reg (.read (regAddr reg))
  | .command i => some [.write (regAddr .cmd) (encode i)]
  | .cmd w => some [.write (regAddr .cmd) w]
  | .wa ts => some (waEvents ts)
  | .wb ts => some (wbEvents ts)
  | .wval v =>
    if -2147483648 ≤ v ∧ v ≤ 2147483647 then some [.write (regAddr .valIn) (BitVec.ofInt 32 v)] else none
  | .movRa => some (movRaEvents s)
  | .movRaSlice j n => movRaSliceEvents s j n
  | .expect reg _ => namedEvent s.cfg reg (.read (regAddr reg))

/-- Perform host events in order (R58), stopping at the first one that is refused. -/
def runEvents : List HostEvent → State → Result
  | [], s => .next s
  | e :: es, s =>
    match hostEvent e s with
    | .next t => runEvents es t
    | .fault f => .fault f
    | .refused r => .refused r

/-- How a host program ends. -/
inductive ProgramEnd where
  /-- Every line was performed. -/
  | finished (s : State)
  /-- An `expect` read another word (R78). -/
  | expectFailed (s : State)
  /-- A `mov_ra j, n` with `j + n > R_LEN`, a `wval v` of an integer that 32 bits do not hold, or a data name past its
  window: the spec gives them no meaning. -/
  | undefinedLine (s : State)
  /-- An access was refused, and with it the run as a whole (R52). -/
  | refused (r : Refusal)
  /-- An access faulted (none does). -/
  | faulted (f : Fault)
  deriving DecidableEq, Repr

/-- The host-side check of `expect` (R78): the word read last is the expected one. -/
def expectMet (s : State) : HostLine → Bool
  | .expect _ w => s.readLog.getLast? == some w
  | _ => true

/-- Perform a host program from state `s` (R77, R78). -/
def runProgram : List HostLine → State → ProgramEnd
  | [], s => .finished s
  | l :: ls, s =>
    match lineEvents s l with
    | none => .undefinedLine s
    | some es =>
      match runEvents es s with
      | .next t => if expectMet t l then runProgram ls t else .expectFailed t
      | .refused r => .refused r
      | .fault f => .faulted f

end Sys2Proof.Machine
end

