-- ==== Sys2Proof/Safety.lean ====
section
/-! DEFINITION. The vocabulary of the claims: the invariants the state keeps (10_state.md R35 and the rules
named below), an operand held in a buffer, and a safe run. -/

namespace Sys2Proof.Machine

/-- What holds of the state at all times: R35 (`cfg_wf` is R6's bounds), the arrays of R20 as long as their
capacities, and what R24, R26, R28, R29, R71 and R201 say the registers that only commands write can hold. -/
structure Inv (s : State) : Prop where
  /-- The configuration is one R6 allows. -/
  cfg_wf : s.cfg.wf = true
  /-- `uint32(A_LEN) <= N_MAX` (R35). -/
  aLen_le : s.aLen.toNat ≤ s.cfg.nMax
  /-- `uint32(B_LEN) <= P_MAX` (R35). -/
  bLen_le : s.bLen.toNat ≤ s.cfg.pMax
  /-- `uint32(R_LEN) <= N_MAX` (R35). -/
  rLen_le : s.rLen.toNat ≤ s.cfg.nMax
  /-- `A : code[N_MAX]` (R20). -/
  a_length : s.a.length = s.cfg.nMax
  /-- `B : code[P_MAX]` (R20). -/
  b_length : s.b.length = s.cfg.pMax
  /-- `R : code[N_MAX]` (R20). -/
  r_length : s.r.length = s.cfg.nMax
  /-- `VALID = 1` implies `CODE = 0` and `ERR_OPERAND = 0` (R28, R35), and `ERR_OFFSET = 0` (R29). -/
  valid_clear : s.valid = true → s.code = 0 ∧ s.errOperand = false ∧ s.errOffset = 0
  /-- The codes 8 to 15 are never reported (R201). -/
  code_le : s.code.toNat ≤ 7
  /-- `R_VAL` is 0 or a core value (R26, R34). -/
  rVal_le : s.rVal.toNat ≤ 80
  /-- No cell of `R` holds the reserved code: commands write only codes of trits (R71). -/
  r_valid : ∀ c ∈ s.r, codeValid c = true

/-- Buffer `buf` with length register `len` holds the trit sequence `ts` as an operand (R21, R22, R23). -/
structure Holds (buf : TritBuf) (len : Word) (ts : List Trit) : Prop where
  length_eq : len.toNat = ts.length
  cells : ∀ (i : Nat) (h : i < ts.length), cell buf i = tritCode ts[i]

/-- `A` and `A_LEN` hold `ts`. -/
def HoldsA (s : State) (ts : List Trit) : Prop := Holds s.a s.aLen ts

/-- `B` and `B_LEN` hold `ts`. -/
def HoldsB (s : State) (ts : List Trit) : Prop := Holds s.b s.bLen ts

/-- Position `i` is the lowest one below `n` with the reserved code (R203). -/
def FirstReserved (buf : TritBuf) (n i : Nat) : Prop :=
  i < n ∧ cell buf i = 0b10#2 ∧ ∀ j, j < i → cell buf j ≠ 0b10#2

/-- `s` after the error report of R200: the four report fields written, and nothing else. -/
def failed (s : State) (code : BitVec 4) (opnd : Bool) (off : Word) : State :=
  { s with valid := false, code := code, errOperand := opnd, errOffset := off }

/-- `s` after the success report of R205. -/
def completed (s : State) : State :=
  { s with valid := true, code := 0, errOperand := false, errOffset := 0 }

/-- The commands whose result is a trit sequence in `R` (R24). -/
def writesVec : Instr → Bool
  | .enc4 => true
  | .dec4 => false
  | .pad => true
  | .unpad => true
  | .encodeCore => true
  | .decodeCore => false
  | .frame => true
  | .unframe => true
  | .capply => true
  | .cremove => true

/-- State `s` as the host has it after it moved the result of `t` into `A` (`mov_ra`, R78): `A_LEN` is the
`R_LEN` of `t` and the cells below it are those of its `R`, in the same build. -/
structure ReloadsA (t s : State) : Prop where
  inv : Inv s
  cfg_eq : s.cfg = t.cfg
  len_eq : s.aLen = t.rLen
  cells : ∀ i, i < t.rLen.toNat → cell s.a i = cell t.r i

/-- Step 2 of R202: the code of the shape check of a command that its operands fail, 0 if they pass. -/
def shapeCode (s : State) : Instr → BitVec 4
  | .enc4 => if s.valIn.toInt < 0 ∨ 80 < s.valIn.toInt then 2 else 0
  | .dec4 => if s.aLen.toNat ≠ 4 then 3 else 0
  | .pad => if s.aLen.toNat ≠ 4 then 3 else 0
  | .unpad => if s.aLen.toNat ≠ 6 then 3 else 0
  | .encodeCore => if s.valIn.toInt < 0 ∨ 80 < s.valIn.toInt then 2 else 0
  | .decodeCore => if s.aLen.toNat ≠ 6 then 3 else 0
  | .frame => if s.aLen.toNat ≠ 6 then 3 else 0
  | .unframe => if s.aLen.toNat ≠ 8 then 3 else 0
  | .capply => if s.bLen.toNat = 0 then 6 else 0
  | .cremove => if s.bLen.toNat = 0 then 6 else 0

/-- How many cells of `A` a command reads once its shape check has passed (R202 step 3). -/
def cellsOfA (s : State) : Instr → Nat
  | .enc4 => 0
  | .dec4 => 4
  | .pad => 4
  | .unpad => 6
  | .encodeCore => 0
  | .decodeCore => 6
  | .frame => 6
  | .unframe => 8
  | .capply => s.aLen.toNat
  | .cremove => s.aLen.toNat

/-- How many cells of `B` a command reads (R202 step 4). -/
def cellsOfB (s : State) : Instr → Nat
  | .capply => s.bLen.toNat
  | .cremove => s.bLen.toNat
  | .enc4 => 0
  | .dec4 => 0
  | .pad => 0
  | .unpad => 0
  | .encodeCore => 0
  | .decodeCore => 0
  | .frame => 0
  | .unframe => 0

/-- Step 5 of R202: the error code of a command's boundary check, the trit it wants, and the later of the two
positions (the earlier is 0). -/
def boundaryOf (s : State) : Instr → Option (BitVec 4 × Trit × Nat)
  | .unpad => some (4, s.cfg.padTrit, 5)
  | .decodeCore => some (4, s.cfg.padTrit, 5)
  | .unframe => some (5, s.cfg.frameTrit, 7)
  | .enc4 => none
  | .dec4 => none
  | .pad => none
  | .encodeCore => none
  | .frame => none
  | .capply => none
  | .cremove => none

/-- The stream of framed tribbles of a list of four-trit cores (R164). -/
def framedStream (c : Cfg) (cores : List (List Trit)) : List Trit :=
  cores.flatMap fun core => frameTrits c (padTrits c core)

/-- A safe run: no number of steps from `s` performs an access that is refused (R52: "the host must not
perform it"). -/
def Safe (s : State) : Prop := ∀ k, ∃ t, Host.Core.run Sys2Proof.core k s = .next t

end Sys2Proof.Machine
end

