-- ==== Sys2Proof/Certificates/Slice0/Obligations.lean ====
section
/-! DEFINITION. The statements for the provers. `failed` and `completed` (Safety.lean) are the states after the
reports of 60_exceptions.md R200 and R205; `HoldsA s [...]` says that `A` and `A_LEN` hold that trit sequence. -/

open Sys2Proof Sys2Proof.Machine

/-! ## Encoding -/

/-- 30_encoding.md R73: the command words of the opcode map, written out, and some reserved words. -/
def Obligations.CommandWordsDecodeAsTabled : Prop :=
  decode 0x00000001#32 = .ok .enc4 ∧ decode 0x00000002#32 = .ok .dec4 ∧
  decode 0x00000003#32 = .ok .pad ∧ decode 0x00000004#32 = .ok .unpad ∧
  decode 0x00000005#32 = .ok .encodeCore ∧ decode 0x00000006#32 = .ok .decodeCore ∧
  decode 0x00000007#32 = .ok .frame ∧ decode 0x00000008#32 = .ok .unframe ∧
  decode 0x00000009#32 = .ok .capply ∧ decode 0x0000000A#32 = .ok .cremove ∧
  decode 0x00000000#32 = .error .reservedOpcode ∧ decode 0x0000000B#32 = .error .reservedOpcode ∧
  decode 0x00000011#32 = .error .reservedBits ∧ decode 0x80000001#32 = .error .reservedBits

/-- 30_encoding.md R72 to R74: each command has one word and each word at most one command; the legal words
are exactly 1 to 10. The third clause, that `decodeTableWord` takes the low 32 bits of any number as the word, is the
model's choice (assumption 13). -/
def Obligations.DecodeIsExactlyTheOpcodeMap : Prop :=
  (∀ (w : Word) (i : Instr), decode w = .ok i ↔ w = encode i) ∧
  (∀ w : Word, (∃ i, decode w = .ok i) ↔ 1 ≤ w.toNat ∧ w.toNat ≤ 10) ∧
  (∀ (n : Nat) (i : Instr), decodeTableWord 32 n = some i ↔ n % 2 ^ 32 = (encode i).toNat)

/-- 30_encoding.md R74: an illegal word is stored in `CMD`, writes no result and raises `ILLEGAL_COMMAND`; any
other word is a command. -/
def Obligations.IllegalWordRaisesIllegalCommand : Prop :=
  ∀ (s : State) (w : Word) (rest : List HostEvent), s.pending = .write 0 w :: rest →
    ((w.extractLsb' 4 28 ≠ 0#28 ∨ w.extractLsb' 0 4 = 0#4 ∨ 11 ≤ (w.extractLsb' 0 4).toNat) →
      step s = .next (failed { s with pending := rest, cmd := w } 7 false 0)) ∧
    (¬ (w.extractLsb' 4 28 ≠ 0#28 ∨ w.extractLsb' 0 4 = 0#4 ∨ 11 ≤ (w.extractLsb' 0 4).toNat) →
      ∃ i, decode w = .ok i)

/-- 10_state.md R27, 20_memory.md R52: a write of a legal word to `CMD` is one step, which stores the word and is
the command's meaning there. The queue of host events is the model's form (assumption 3), `withFetchWord` too
(assumption 6). -/
def Obligations.StepRunsTheDecodedCommand : Prop :=
  (∀ (s : State) (w : Word) (rest : List HostEvent) (i : Instr), s.pending = .write 0 w :: rest →
    decode w = .ok i → step s = exec i { s with pending := rest, cmd := w }) ∧
  (∀ (s : State) (i : Instr),
    step (s.withFetchWord 32 (encode i).toNat) = exec i { s with cmd := encode i })

/-! ## Trit arithmetic and codes -/

/-- 40_ternary_codec.md section 1: the definitions of R101 and R102, and the laws of R101 (commutative, associative,
identity, inverse) and R103 that the spec marks as derived. -/
def Obligations.TritAdditionIsArithmeticModThree : Prop :=
  (∀ a b : Trit, tritInt (addMod3 a b) =
    if tritInt a + tritInt b > 1 then tritInt a + tritInt b - 3
    else if tritInt a + tritInt b < -1 then tritInt a + tritInt b + 3
    else tritInt a + tritInt b) ∧
  (∀ a b : Trit, (tritInt (addMod3 a b) - (tritInt a + tritInt b)) % 3 = 0) ∧
  (∀ a b c : Trit, addMod3 a b = addMod3 b a ∧ addMod3 (addMod3 a b) c = addMod3 a (addMod3 b c) ∧
    addMod3 a .zero = a ∧ addMod3 a (negTrit a) = .zero) ∧
  (∀ t : Trit, tritInt (negTrit t) = -tritInt t) ∧
  (∀ a b : Trit, subMod3 a b = addMod3 a (negTrit b) ∧ subMod3 (addMod3 a b) b = a ∧
    addMod3 (subMod3 a b) b = a)

/-- 40_ternary_codec.md R104, R105: the digits follow the remainder loop, they sum to the number with weights
1, 3, 9, 27, and digits and value are inverse (which R105 marks as derived). -/
def Obligations.BalancedDigitsAndValueAreInverse : Prop :=
  (∀ n : Int, -40 ≤ n → n ≤ 40 → ∃ d0 d1 d2 d3 : Trit, ∃ n1 n2 n3 : Int,
    balDigits n = [d0, d1, d2, d3] ∧
    tritInt d0 = (n + 1) % 3 - 1 ∧ n - tritInt d0 = 3 * n1 ∧
    tritInt d1 = (n1 + 1) % 3 - 1 ∧ n1 - tritInt d1 = 3 * n2 ∧
    tritInt d2 = (n2 + 1) % 3 - 1 ∧ n2 - tritInt d2 = 3 * n3 ∧
    tritInt d3 = (n3 + 1) % 3 - 1 ∧ n3 - tritInt d3 = 0 ∧
    n = tritInt d0 + 3 * tritInt d1 + 9 * tritInt d2 + 27 * tritInt d3 ∧
    balValue (balDigits n) = n) ∧
  (∀ d0 d1 d2 d3 : Trit,
    balValue [d0, d1, d2, d3] = tritInt d0 + 3 * tritInt d1 + 9 * tritInt d2 + 27 * tritInt d3 ∧
    -40 ≤ balValue [d0, d1, d2, d3] ∧ balValue [d0, d1, d2, d3] ≤ 40 ∧
    balDigits (balValue [d0, d1, d2, d3]) = [d0, d1, d2, d3])

/-- 30_encoding.md R70: the codes, two's-complement, a bijection between the valid codes and the trits. -/
def Obligations.TritCodesAreTwosComplement : Prop :=
  tritCode .zero = 0b00#2 ∧ tritCode .plus = 0b01#2 ∧ tritCode .minus = 0b11#2 ∧
  codeTrit 0b10#2 = none ∧
  (∀ t : Trit, codeTrit (tritCode t) = some t ∧ (tritCode t).toInt = tritInt t) ∧
  (∀ (c : Code) (t : Trit), codeTrit c = some t ↔ c = tritCode t) ∧
  (∀ c : Code, c ≠ 0b10#2 → ∃ t, codeTrit c = some t)

/-- 43_carrier.md R180, R181, R185: position `i` of an overlay is the sum of the stream's trit and the pattern's
trit at `i mod |p|`, of a removal their difference, and no other position matters (R185, marked as derived). -/
def Obligations.CarrierIsLanewise : Prop :=
  (∀ x p : List Trit, (overlay x p).length = x.length ∧ (unoverlay x p).length = x.length) ∧
  (∀ (x p : List Trit) (i : Nat) (a b : Trit), x[i]? = some a → p[i % p.length]? = some b →
    (overlay x p)[i]? = some (addMod3 a b) ∧ (unoverlay x p)[i]? = some (subMod3 a b)) ∧
  (∀ (x p x' p' : List Trit) (i : Nat), x[i]? = x'[i]? → p ≠ [] → p' ≠ [] →
    p[i % p.length]? = p'[i % p'.length]? →
    (overlay x p)[i]? = (overlay x' p')[i]? ∧ (unoverlay x p)[i]? = (unoverlay x' p')[i]?)

/-! ## The commands, each whole: result, report, errors in their order, and (by the equation) its frame -/

/-- 40_ternary_codec.md R106. -/
def Obligations.Enc4WritesBalancedDigits : Prop :=
  decode 0x00000001#32 = .ok .enc4 ∧
  ∀ s : State,
    (0 ≤ s.valIn.toInt → s.valIn.toInt ≤ 80 → ∃ d0 d1 d2 d3 : Trit,
      tritInt d0 + 3 * tritInt d1 + 9 * tritInt d2 + 27 * tritInt d3 = s.valIn.toInt - 40 ∧
      exec .enc4 s = .next (completed { s with r := writeTrits s.r [d0, d1, d2, d3], rLen := 4 })) ∧
    (s.valIn.toInt < 0 ∨ 80 < s.valIn.toInt → exec .enc4 s = .next (failed s 2 false 0))

/-- 40_ternary_codec.md R107. -/
def Obligations.Dec4WritesTheCoreValue : Prop :=
  decode 0x00000002#32 = .ok .dec4 ∧
  ∀ s : State,
    (s.aLen.toNat ≠ 4 → exec .dec4 s = .next (failed s 3 false s.aLen)) ∧
    (s.aLen.toNat = 4 → ∀ p, FirstReserved s.a 4 p →
      exec .dec4 s = .next (failed s 1 false (BitVec.ofNat 32 p))) ∧
    (∀ d0 d1 d2 d3 : Trit, HoldsA s [d0, d1, d2, d3] → ∃ v : Word,
      (v.toNat : Int) = tritInt d0 + 3 * tritInt d1 + 9 * tritInt d2 + 27 * tritInt d3 + 40 ∧
      v.toNat ≤ 80 ∧ exec .dec4 s = .next (completed { s with rVal := v }))

/-- 41_tribble_padder.md R131 (with R130). -/
def Obligations.PadAddsThePadTrits : Prop :=
  decode 0x00000003#32 = .ok .pad ∧
  ∀ s : State,
    (s.aLen.toNat ≠ 4 → exec .pad s = .next (failed s 3 false s.aLen)) ∧
    (s.aLen.toNat = 4 → ∀ p, FirstReserved s.a 4 p →
      exec .pad s = .next (failed s 1 false (BitVec.ofNat 32 p))) ∧
    (∀ c0 c1 c2 c3 : Trit, HoldsA s [c0, c1, c2, c3] →
      exec .pad s = .next (completed { s with
        r := writeTrits s.r [s.cfg.padTrit, c0, c1, c2, c3, s.cfg.padTrit], rLen := 6 }))

/-- 41_tribble_padder.md R132. -/
def Obligations.UnpadChecksAndStripsThePadTrits : Prop :=
  decode 0x00000004#32 = .ok .unpad ∧
  ∀ s : State,
    (s.aLen.toNat ≠ 6 → exec .unpad s = .next (failed s 3 false s.aLen)) ∧
    (s.aLen.toNat = 6 → ∀ p, FirstReserved s.a 6 p →
      exec .unpad s = .next (failed s 1 false (BitVec.ofNat 32 p))) ∧
    (∀ x c0 c1 c2 c3 y : Trit, HoldsA s [x, c0, c1, c2, c3, y] →
      (x ≠ s.cfg.padTrit → exec .unpad s = .next (failed s 4 false 0)) ∧
      (x = s.cfg.padTrit → y ≠ s.cfg.padTrit → exec .unpad s = .next (failed s 4 false 5)) ∧
      (x = s.cfg.padTrit → y = s.cfg.padTrit →
        exec .unpad s = .next (completed { s with r := writeTrits s.r [c0, c1, c2, c3], rLen := 4 })))

/-- 41_tribble_padder.md R133. -/
def Obligations.EncodeCoreWritesTheTribble : Prop :=
  decode 0x00000005#32 = .ok .encodeCore ∧
  ∀ s : State,
    (0 ≤ s.valIn.toInt → s.valIn.toInt ≤ 80 → ∃ d0 d1 d2 d3 : Trit,
      tritInt d0 + 3 * tritInt d1 + 9 * tritInt d2 + 27 * tritInt d3 = s.valIn.toInt - 40 ∧
      exec .encodeCore s = .next (completed { s with
        r := writeTrits s.r [s.cfg.padTrit, d0, d1, d2, d3, s.cfg.padTrit], rLen := 6 })) ∧
    (s.valIn.toInt < 0 ∨ 80 < s.valIn.toInt → exec .encodeCore s = .next (failed s 2 false 0))

/-- 41_tribble_padder.md R134. -/
def Obligations.DecodeCoreChecksThePadsAndWritesTheValue : Prop :=
  decode 0x00000006#32 = .ok .decodeCore ∧
  ∀ s : State,
    (s.aLen.toNat ≠ 6 → exec .decodeCore s = .next (failed s 3 false s.aLen)) ∧
    (s.aLen.toNat = 6 → ∀ p, FirstReserved s.a 6 p →
      exec .decodeCore s = .next (failed s 1 false (BitVec.ofNat 32 p))) ∧
    (∀ x d0 d1 d2 d3 y : Trit, HoldsA s [x, d0, d1, d2, d3, y] →
      (x ≠ s.cfg.padTrit → exec .decodeCore s = .next (failed s 4 false 0)) ∧
      (x = s.cfg.padTrit → y ≠ s.cfg.padTrit → exec .decodeCore s = .next (failed s 4 false 5)) ∧
      (x = s.cfg.padTrit → y = s.cfg.padTrit → ∃ v : Word,
        (v.toNat : Int) = tritInt d0 + 3 * tritInt d1 + 9 * tritInt d2 + 27 * tritInt d3 + 40 ∧
        v.toNat ≤ 80 ∧ exec .decodeCore s = .next (completed { s with rVal := v })))

/-- 42_frame_wrapper.md R161 (with R160). -/
def Obligations.FrameAddsTheFrameTrits : Prop :=
  decode 0x00000007#32 = .ok .frame ∧
  ∀ s : State,
    (s.aLen.toNat ≠ 6 → exec .frame s = .next (failed s 3 false s.aLen)) ∧
    (s.aLen.toNat = 6 → ∀ p, FirstReserved s.a 6 p →
      exec .frame s = .next (failed s 1 false (BitVec.ofNat 32 p))) ∧
    (∀ t0 t1 t2 t3 t4 t5 : Trit, HoldsA s [t0, t1, t2, t3, t4, t5] →
      exec .frame s = .next (completed { s with
        r := writeTrits s.r [s.cfg.frameTrit, t0, t1, t2, t3, t4, t5, s.cfg.frameTrit], rLen := 8 }))

/-- 42_frame_wrapper.md R162. -/
def Obligations.UnframeChecksAndStripsTheFrameTrits : Prop :=
  decode 0x00000008#32 = .ok .unframe ∧
  ∀ s : State,
    (s.aLen.toNat ≠ 8 → exec .unframe s = .next (failed s 3 false s.aLen)) ∧
    (s.aLen.toNat = 8 → ∀ p, FirstReserved s.a 8 p →
      exec .unframe s = .next (failed s 1 false (BitVec.ofNat 32 p))) ∧
    (∀ x t0 t1 t2 t3 t4 t5 y : Trit, HoldsA s [x, t0, t1, t2, t3, t4, t5, y] →
      (x ≠ s.cfg.frameTrit → exec .unframe s = .next (failed s 5 false 0)) ∧
      (x = s.cfg.frameTrit → y ≠ s.cfg.frameTrit → exec .unframe s = .next (failed s 5 false 7)) ∧
      (x = s.cfg.frameTrit → y = s.cfg.frameTrit →
        exec .unframe s = .next (completed { s with
          r := writeTrits s.r [t0, t1, t2, t3, t4, t5], rLen := 6 })))

/-- 43_carrier.md R182. -/
def Obligations.CapplyOverlaysThePattern : Prop :=
  decode 0x00000009#32 = .ok .capply ∧
  ∀ s : State,
    (s.bLen.toNat = 0 → exec .capply s = .next (failed s 6 true 0)) ∧
    (s.bLen.toNat ≠ 0 → ∀ p, FirstReserved s.a s.aLen.toNat p →
      exec .capply s = .next (failed s 1 false (BitVec.ofNat 32 p))) ∧
    (s.bLen.toNat ≠ 0 → (∀ i, i < s.aLen.toNat → cell s.a i ≠ 0b10#2) →
      ∀ p, FirstReserved s.b s.bLen.toNat p →
        exec .capply s = .next (failed s 1 true (BitVec.ofNat 32 p))) ∧
    (∀ x p : List Trit, HoldsA s x → HoldsB s p → p ≠ [] → ∃ o : List Trit,
      o.length = x.length ∧
      (∀ (i : Nat) (a b : Trit), x[i]? = some a → p[i % p.length]? = some b →
        o[i]? = some (addMod3 a b)) ∧
      exec .capply s = .next (completed { s with r := writeTrits s.r o, rLen := s.aLen }))

/-- 43_carrier.md R183. -/
def Obligations.CremoveRemovesThePattern : Prop :=
  decode 0x0000000A#32 = .ok .cremove ∧
  ∀ s : State,
    (s.bLen.toNat = 0 → exec .cremove s = .next (failed s 6 true 0)) ∧
    (s.bLen.toNat ≠ 0 → ∀ p, FirstReserved s.a s.aLen.toNat p →
      exec .cremove s = .next (failed s 1 false (BitVec.ofNat 32 p))) ∧
    (s.bLen.toNat ≠ 0 → (∀ i, i < s.aLen.toNat → cell s.a i ≠ 0b10#2) →
      ∀ p, FirstReserved s.b s.bLen.toNat p →
        exec .cremove s = .next (failed s 1 true (BitVec.ofNat 32 p))) ∧
    (∀ x p : List Trit, HoldsA s x → HoldsB s p → p ≠ [] → ∃ o : List Trit,
      o.length = x.length ∧
      (∀ (i : Nat) (a b : Trit), x[i]? = some a → p[i % p.length]? = some b →
        o[i]? = some (subMod3 a b)) ∧
      exec .cremove s = .next (completed { s with r := writeTrits s.r o, rLen := s.aLen }))

/-! ## Reports -/

/-- 60_exceptions.md R200, R204, R205: every command answers a next state that is its starting state with
either an error report alone or one result and the success report, and what the report was before does not
show. With this goes the frame of all ten commands. -/
def Obligations.EveryCommandEndsInOneReport : Prop :=
  ∀ (i : Instr) (s : State),
    ((∃ (c : BitVec 4) (o : Bool) (f : Word), 1 ≤ c.toNat ∧ c.toNat ≤ 6 ∧
        exec i s = .next (failed s c o f)) ∨
     (writesVec i = true ∧ ∃ ts : List Trit,
        exec i s = .next (completed { s with r := writeTrits s.r ts, rLen := BitVec.ofNat 32 ts.length })) ∨
     (writesVec i = false ∧ ∃ v : Word, v.toNat ≤ 80 ∧
        exec i s = .next (completed { s with rVal := v }))) ∧
    (∀ (v : Bool) (c : BitVec 4) (o : Bool) (f : Word),
      exec i { s with valid := v, code := c, errOperand := o, errOffset := f } = exec i s)

/-- 60_exceptions.md R201: after a write of `CMD`, `CODE` is 0 exactly if the command completed, every other
code has its cause and its commands, and no code above 7 is reported. -/
def Obligations.ErrorCodeNamesItsCause : Prop :=
  ∀ (s : State) (w : Word) (rest : List HostEvent), s.pending = .write 0 w :: rest →
    ∃ t, step s = .next t ∧ t.code.toNat ≤ 7 ∧
    (t.code = 0 ↔ t.valid = true) ∧
    (t.code = 0 → ∃ i, decode w = .ok i) ∧
    (t.code = 1 → ∃ i, decode w = .ok i ∧ i ≠ .enc4 ∧ i ≠ .encodeCore ∧
      ((∃ p, p < cellsOfA s i ∧ cell s.a p = 0b10#2) ∨ (∃ p, p < cellsOfB s i ∧ cell s.b p = 0b10#2))) ∧
    (t.code = 2 → (decode w = .ok .enc4 ∨ decode w = .ok .encodeCore) ∧
      (s.valIn.toInt < 0 ∨ 80 < s.valIn.toInt)) ∧
    (t.code = 3 →
      ((decode w = .ok .dec4 ∨ decode w = .ok .pad) ∧ s.aLen.toNat ≠ 4) ∨
      ((decode w = .ok .unpad ∨ decode w = .ok .decodeCore ∨ decode w = .ok .frame) ∧ s.aLen.toNat ≠ 6) ∨
      (decode w = .ok .unframe ∧ s.aLen.toNat ≠ 8)) ∧
    (t.code = 4 → (decode w = .ok .unpad ∨ decode w = .ok .decodeCore) ∧
      (cell s.a 0 ≠ tritCode s.cfg.padTrit ∨ cell s.a 5 ≠ tritCode s.cfg.padTrit)) ∧
    (t.code = 5 → decode w = .ok .unframe ∧
      (cell s.a 0 ≠ tritCode s.cfg.frameTrit ∨ cell s.a 7 ≠ tritCode s.cfg.frameTrit)) ∧
    (t.code = 6 → (decode w = .ok .capply ∨ decode w = .ok .cremove) ∧ s.bLen = 0) ∧
    (t.code = 7 → ∃ e, decode w = .error e)

/-- 60_exceptions.md R203, 10_state.md R29: what `ERR_OFFSET` and `ERR_OPERAND` hold after each error, and 0 after a
command that completed. -/
def Obligations.ErrorInformationLocatesTheError : Prop :=
  ∀ (s : State) (w : Word) (rest : List HostEvent), s.pending = .write 0 w :: rest →
    ∃ t, step s = .next t ∧
    (t.code = 1 →
      ∃ i, decode w = .ok i ∧
        ((t.errOperand = false ∧ t.errOffset.toNat < cellsOfA s i ∧ cell s.a t.errOffset.toNat = 0b10#2) ∨
         (t.errOperand = true ∧ t.errOffset.toNat < cellsOfB s i ∧ cell s.b t.errOffset.toNat = 0b10#2))) ∧
    (t.code = 2 → t.errOffset = 0 ∧ t.errOperand = false) ∧
    (t.code = 3 → t.errOffset = s.aLen ∧ t.errOperand = false) ∧
    (t.code = 4 → t.errOperand = false ∧
      ((t.errOffset = 0 ∧ cell s.a 0 ≠ tritCode s.cfg.padTrit) ∨
       (t.errOffset = 5 ∧ cell s.a 5 ≠ tritCode s.cfg.padTrit))) ∧
    (t.code = 5 → t.errOperand = false ∧
      ((t.errOffset = 0 ∧ cell s.a 0 ≠ tritCode s.cfg.frameTrit) ∨
       (t.errOffset = 7 ∧ cell s.a 7 ≠ tritCode s.cfg.frameTrit))) ∧
    (t.code = 6 → t.errOffset = 0 ∧ t.errOperand = true) ∧
    (t.code = 7 → t.errOffset = 0 ∧ t.errOperand = false) ∧
    (t.code = 0 → t.errOffset = 0 ∧ t.errOperand = false)

/-- 60_exceptions.md R202: a command reports the first check that fails: illegal word, shape of the operands,
reserved codes in `A` lowest first, in `B` lowest first, boundary trits position 0 first; and `OK` if none. -/
def Obligations.FirstFailingCheckIsReported : Prop :=
  (∀ (s : State) (w : Word) (rest : List HostEvent), s.pending = .write 0 w :: rest →
    (∀ i, decode w ≠ .ok i) → ∃ t, step s = .next t ∧ t.code = 7) ∧
  ∀ (i : Instr) (s : State), ∃ t, exec i s = .next t ∧
    (shapeCode s i ≠ 0 → t.code = shapeCode s i) ∧
    (shapeCode s i = 0 → ∀ p, FirstReserved s.a (cellsOfA s i) p →
      t.code = 1 ∧ t.errOperand = false ∧ t.errOffset = BitVec.ofNat 32 p) ∧
    (shapeCode s i = 0 → (∀ p, p < cellsOfA s i → cell s.a p ≠ 0b10#2) →
      (∀ p, FirstReserved s.b (cellsOfB s i) p →
        t.code = 1 ∧ t.errOperand = true ∧ t.errOffset = BitVec.ofNat 32 p) ∧
      ((∀ p, p < cellsOfB s i → cell s.b p ≠ 0b10#2) →
        (boundaryOf s i = none → t.code = 0) ∧
        (∀ (c : BitVec 4) (b : Trit) (last : Nat), boundaryOf s i = some (c, b, last) →
          (cell s.a 0 ≠ tritCode b → t.code = c ∧ t.errOffset = 0) ∧
          (cell s.a 0 = tritCode b → cell s.a last ≠ tritCode b →
            t.code = c ∧ t.errOffset = BitVec.ofNat 32 last) ∧
          (cell s.a 0 = tritCode b → cell s.a last = tritCode b → t.code = 0))))

/-- 10_state.md R28: how `STATUS` packs its fields; `VALID = 0` with `CODE = 0` is never left by a command;
only a write of `CMD` or a reset changes the fields, every write of `CMD` writes them, and no command reads
them. -/
def Obligations.StatusIsWrittenByCommandsOnly : Prop :=
  (∀ s : State, (statusWord s).extractLsb' 0 4 = s.code ∧ (statusWord s).extractLsb' 4 4 = 0#4 ∧
    (statusWord s).getLsbD 8 = s.valid ∧ (statusWord s).getLsbD 9 = s.errOperand ∧
    (statusWord s).extractLsb' 10 22 = 0#22) ∧
  (∀ s t : State, step s = .next t →
    (t.valid = s.valid ∧ t.code = s.code ∧ t.errOperand = s.errOperand ∧ t.errOffset = s.errOffset) ∨
    (∃ rest, s.pending = .reset :: rest ∧
      t.valid = false ∧ t.code = 0 ∧ t.errOperand = false ∧ t.errOffset = 0) ∨
    (∃ w rest, s.pending = .write 0 w :: rest ∧
      ((t.valid = true ∧ t.code = 0 ∧ t.errOperand = false) ∨ (t.valid = false ∧ t.code ≠ 0)))) ∧
  (∀ (s : State) (w : Word) (rest : List HostEvent), s.pending = .write 0 w :: rest →
    ∃ t, step s = .next t ∧ (t.valid = true ↔ t.code = 0) ∧
    ∀ (v : Bool) (c : BitVec 4) (o : Bool) (f : Word),
      step { s with valid := v, code := c, errOperand := o, errOffset := f } = .next t)

/-! ## State: reset, invariant, frames -/

/-- 10_state.md R34, 70_reset_and_hazards.md R230: what the host's reset event leaves; the machine at `State.reset`;
and what every read right after reset returns. That the host's queue and
its record of reads survive a reset is the model's choice (assumption 7) and is not stated here. -/
def Obligations.ResetSetsEveryRegister : Prop :=
  (∀ (s : State) (rest : List HostEvent), s.pending = .reset :: rest →
    ∃ t, step s = .next t ∧ t.cmd = 0 ∧ t.valid = false ∧ t.code = 0 ∧ t.errOperand = false ∧
      t.errOffset = 0 ∧ t.valIn = 0 ∧ t.rVal = 0 ∧ t.aLen = 0 ∧ t.bLen = 0 ∧ t.rLen = 0 ∧
      t.a = List.replicate s.cfg.nMax 0b00#2 ∧ t.b = List.replicate s.cfg.pMax 0b00#2 ∧
      t.r = List.replicate s.cfg.nMax 0b00#2 ∧ t.cfg = s.cfg ∧ statusWord t = 0) ∧
  (State.reset.cmd = 0 ∧ State.reset.valid = false ∧ State.reset.code = 0 ∧
    State.reset.errOperand = false ∧ State.reset.errOffset = 0 ∧ State.reset.valIn = 0 ∧
    State.reset.rVal = 0 ∧ State.reset.aLen = 0 ∧ State.reset.bLen = 0 ∧ State.reset.rLen = 0 ∧
    (∀ i, cell State.reset.a i = 0b00#2 ∧ cell State.reset.b i = 0b00#2 ∧ cell State.reset.r i = 0b00#2) ∧
    statusWord State.reset = 0) ∧
  (∀ (c : Cfg) (a : Word), addrMapped c a.toNat = true →
    step { State.resetOf c with pending := [.read a] } = .next { State.resetOf c with
      readLog := [if a = 8 then cfgWord c else if a = 9 then capNWord c else if a = 10 then capPWord c else 0] })

/-- 10_state.md R35 ("They hold after reset"), for every configuration R6 allows (a rule the spec marks
as derived). -/
def Obligations.InvariantHoldsAtReset : Prop :=
  (∀ c : Cfg, c.wf = true → Inv (State.resetOf c)) ∧ Inv State.reset

/-- 10_state.md R35: every step keeps the invariants (the lengths within their capacities, `VALID` with `CODE = 0`,
and those that `Inv` names from R20, R26, R29, R71 and R201), the configuration and the buffers' sizes; and a
trit-sequence result is at most as long as `A_LEN` or 8. -/
def Obligations.StepKeepsTheInvariant : Prop :=
  ∀ s t : State, Inv s → step s = .next t →
    Inv t ∧ t.cfg = s.cfg ∧
    (∀ w rest, s.pending = .write 0 w :: rest →
      t.rLen = s.rLen ∨ t.rLen.toNat ≤ 8 ∨ t.rLen = s.aLen)

/-- 10_state.md R24 and R26: `R` with `R_LEN`, and `R_VAL`, change only at a reset or when a command of their kind
completes, and then as those rules say, cell by cell. -/
def Obligations.ResultRegistersAreWrittenOnCompletion : Prop :=
  ∀ s t : State, Inv s → step s = .next t →
    (∃ rest, s.pending = .reset :: rest) ∨
    (t.r = s.r ∧ t.rLen = s.rLen ∧ t.rVal = s.rVal) ∨
    (∃ w rest i, s.pending = .write 0 w :: rest ∧ decode w = .ok i ∧ writesVec i = true ∧ t.valid = true ∧
      t.rVal = s.rVal ∧ ∃ ts : List Trit, t.rLen.toNat = ts.length ∧
        (∀ (k : Nat) (h : k < ts.length), cell t.r k = tritCode ts[k]) ∧
        (∀ k, ts.length ≤ k → cell t.r k = cell s.r k)) ∨
    (∃ w rest, s.pending = .write 0 w :: rest ∧ (decode w = .ok .dec4 ∨ decode w = .ok .decodeCore) ∧
      t.valid = true ∧ t.r = s.r ∧ t.rLen = s.rLen ∧ t.rVal.toNat ≤ 80)

/-- 10_state.md R22, R23, R25, R27: a step leaves `A`, `A_LEN`, `B`, `B_LEN`, `VAL_IN` and `CMD` alone unless the
host writes that very register (or window) or resets; commands never write them. -/
def Obligations.OperandsAreWrittenByTheHostOnly : Prop :=
  (∀ (i : Instr) (s : State), ∃ t, exec i s = .next t ∧
    t.a = s.a ∧ t.aLen = s.aLen ∧ t.b = s.b ∧ t.bLen = s.bLen ∧ t.valIn = s.valIn ∧ t.cmd = s.cmd ∧
    t.cfg = s.cfg ∧ t.pending = s.pending ∧ t.readLog = s.readLog) ∧
  (∀ s t : State, step s = .next t →
    (∃ rest, s.pending = .reset :: rest) ∨
    (t.a = s.a ∧ t.aLen = s.aLen ∧ t.b = s.b ∧ t.bLen = s.bLen ∧ t.valIn = s.valIn ∧ t.cmd = s.cmd) ∨
    (∃ a w rest, s.pending = .write a w :: rest ∧
      (t.a ≠ s.a → 0x10000 ≤ a.toNat ∧ a.toNat < 0x10000 + windowWords s.cfg.nMax) ∧
      (t.aLen ≠ s.aLen → a = 5 ∧ t.aLen = w) ∧
      (t.b ≠ s.b → 0x20000 ≤ a.toNat ∧ a.toNat < 0x20000 + windowWords s.cfg.pMax) ∧
      (t.bLen ≠ s.bLen → a = 6 ∧ t.bLen = w) ∧
      (t.valIn ≠ s.valIn → a = 3 ∧ t.valIn = w) ∧
      (t.cmd ≠ s.cmd → a = 0 ∧ t.cmd = w)))

/-- 10_state.md R20, last sentences: what a command computes depends on its operands and the configuration alone,
never on earlier results, reports or `CMD`. -/
def Obligations.CommandsDependOnOperandsOnly : Prop :=
  ∀ (i : Instr) (s s' t t' : State), Inv s → Inv s' →
    s'.valIn = s.valIn → s'.aLen = s.aLen → s'.a = s.a → s'.bLen = s.bLen → s'.b = s.b → s'.cfg = s.cfg →
    exec i s = .next t → exec i s' = .next t' →
    statusWord t = statusWord t' ∧ t.errOffset = t'.errOffset ∧
    (t.valid = true → writesVec i = true →
      t.rLen = t'.rLen ∧ ∀ k, k < t.rLen.toNat → cell t.r k = cell t'.r k) ∧
    (t.valid = true → writesVec i = false → t.rVal = t'.rVal)

/-! ## Host accesses -/

/-- 20_memory.md R51, R52: a read and a write at every address. The queue and the record of reads are the model's
form of the host (assumptions 3 and 4). -/
def Obligations.HostAccessesFollowTheMap : Prop :=
  ∀ (s : State) (rest : List HostEvent), Inv s →
    (∀ a : Word, s.pending = .read a :: rest →
      (∀ w : Word,
        (a = 0 ∧ w = s.cmd) ∨ (a = 1 ∧ w = statusWord s) ∨ (a = 2 ∧ w = s.errOffset) ∨
        (a = 3 ∧ w = s.valIn) ∨ (a = 4 ∧ w = s.rVal) ∨ (a = 5 ∧ w = s.aLen) ∨ (a = 6 ∧ w = s.bLen) ∨
        (a = 7 ∧ w = s.rLen) ∨ (a = 8 ∧ w = cfgWord s.cfg) ∨
        (a = 9 ∧ w = BitVec.ofNat 32 s.cfg.nMax) ∨ (a = 10 ∧ w = BitVec.ofNat 32 s.cfg.pMax) →
        step s = .next { s with pending := rest, readLog := s.readLog ++ [w] }) ∧
      (∀ (k : Nat) (buf : TritBuf),
        (a.toNat = 0x10000 + k ∧ k < (s.cfg.nMax + 15) / 16 ∧ buf = s.a) ∨
        (a.toNat = 0x20000 + k ∧ k < (s.cfg.pMax + 15) / 16 ∧ buf = s.b) ∨
        (a.toNat = 0x30000 + k ∧ k < (s.cfg.nMax + 15) / 16 ∧ buf = s.r) →
        ∃ w, (∀ j, j < 16 → w.extractLsb' (2 * j) 2 = cell buf (16 * k + j)) ∧
          step s = .next { s with pending := rest, readLog := s.readLog ++ [w] }) ∧
      (10 < a.toNat →
        ¬ (0x10000 ≤ a.toNat ∧ a.toNat < 0x10000 + (s.cfg.nMax + 15) / 16) →
        ¬ (0x20000 ≤ a.toNat ∧ a.toNat < 0x20000 + (s.cfg.pMax + 15) / 16) →
        ¬ (0x30000 ≤ a.toNat ∧ a.toNat < 0x30000 + (s.cfg.nMax + 15) / 16) →
        step s = .refused (.unmappedAddress a))) ∧
    (∀ a w : Word, s.pending = .write a w :: rest →
      (a = 0 → ∀ i, decode w = .ok i → step s = exec i { s with pending := rest, cmd := w }) ∧
      (a = 0 → (∀ i, decode w ≠ .ok i) →
        step s = .next (failed { s with pending := rest, cmd := w } 7 false 0)) ∧
      (a = 3 → step s = .next { s with pending := rest, valIn := w }) ∧
      (a = 5 → w.toNat ≤ s.cfg.nMax → step s = .next { s with pending := rest, aLen := w }) ∧
      (a = 5 → s.cfg.nMax < w.toNat → step s = .refused (.lengthAboveCapacity a w)) ∧
      (a = 6 → w.toNat ≤ s.cfg.pMax → step s = .next { s with pending := rest, bLen := w }) ∧
      (a = 6 → s.cfg.pMax < w.toNat → step s = .refused (.lengthAboveCapacity a w)) ∧
      (a = 1 ∨ a = 2 ∨ a = 4 ∨ a = 7 ∨ a = 8 ∨ a = 9 ∨ a = 10 ∨
        (0x30000 ≤ a.toNat ∧ a.toNat < 0x30000 + (s.cfg.nMax + 15) / 16) →
        step s = .next { s with pending := rest }) ∧
      (∀ k, a.toNat = 0x10000 + k → k < (s.cfg.nMax + 15) / 16 → ∃ buf : TritBuf,
        buf.length = s.a.length ∧
        (∀ j, j < 16 → 16 * k + j < s.cfg.nMax → cell buf (16 * k + j) = w.extractLsb' (2 * j) 2) ∧
        (∀ i, ¬ (16 * k ≤ i ∧ i < 16 * k + 16) → cell buf i = cell s.a i) ∧
        step s = .next { s with pending := rest, a := buf }) ∧
      (∀ k, a.toNat = 0x20000 + k → k < (s.cfg.pMax + 15) / 16 → ∃ buf : TritBuf,
        buf.length = s.b.length ∧
        (∀ j, j < 16 → 16 * k + j < s.cfg.pMax → cell buf (16 * k + j) = w.extractLsb' (2 * j) 2) ∧
        (∀ i, ¬ (16 * k ≤ i ∧ i < 16 * k + 16) → cell buf i = cell s.b i) ∧
        step s = .next { s with pending := rest, b := buf }) ∧
      (10 < a.toNat →
        ¬ (0x10000 ≤ a.toNat ∧ a.toNat < 0x10000 + (s.cfg.nMax + 15) / 16) →
        ¬ (0x20000 ≤ a.toNat ∧ a.toNat < 0x20000 + (s.cfg.pMax + 15) / 16) →
        ¬ (0x30000 ≤ a.toNat ∧ a.toNat < 0x30000 + (s.cfg.nMax + 15) / 16) →
        step s = .refused (.unmappedAddress a)))

/-- 20_memory.md R53: bits `[2j+1 : 2j]` of data word `k` are cell `16k + j`, `0b00` at or above the capacity, the
length register notwithstanding; with the rule's example. -/
def Obligations.DataWordPacksSixteenCells : Prop :=
  (∀ (buf : TritBuf) (k j : Nat), j < 16 →
    (packWord buf k).extractLsb' (2 * j) 2 = if 16 * k + j < buf.length then cell buf (16 * k + j) else 0b00#2) ∧
  (∀ (s : State) (a : Word) (rest : List HostEvent) (k : Nat), Inv s → s.pending = .read a :: rest →
    (a.toNat = 0x10000 + k → k < (s.cfg.nMax + 15) / 16 →
      step s = .next { s with pending := rest, readLog := s.readLog ++ [packWord s.a k] }) ∧
    (a.toNat = 0x20000 + k → k < (s.cfg.pMax + 15) / 16 →
      step s = .next { s with pending := rest, readLog := s.readLog ++ [packWord s.b k] }) ∧
    (a.toNat = 0x30000 + k → k < (s.cfg.nMax + 15) / 16 →
      step s = .next { s with pending := rest, readLog := s.readLog ++ [packWord s.r k] })) ∧
  packWord [0b01#2, 0b00#2, 0b11#2, 0b00#2] 0 = 0x00000031#32

/-- 20_memory.md R56: the same access twice in a row. A read changes nothing but the host's record and gives the
same word again; a write repeated, of `CMD` too, leaves what it left the first time. -/
def Obligations.RepeatedAccessHasTheSameEffect : Prop :=
  ∀ (s s1 : State) (e : HostEvent) (rest : List HostEvent), s.pending = e :: e :: rest → step s = .next s1 →
    (∀ a, e = .read a → ∃ w, s1 = { s with pending := e :: rest, readLog := s.readLog ++ [w] } ∧
      step s1 = .next { s1 with pending := rest, readLog := s1.readLog ++ [w] }) ∧
    (∀ a w, e = .write a w → step s1 = .next { s1 with pending := rest })

/-- 20_memory.md R58: host events are performed one at a time in the host's order, none lost or reordered: `n` steps on
a queue that begins with `n` events perform exactly these, each on the state the one before it left. The queue is the
model's choice (assumption 3), and so is the record of reads (4); the clauses cover a reset event too, and that the
rest of the queue and the record survive it is the model's choice (assumption 7). -/
def Obligations.QueueRunsInProgramOrder : Prop :=
  (∀ s t : State, step s = .next t → t.pending = s.pending.tail ∧
    ((∃ a rest w, s.pending = .read a :: rest ∧ t.readLog = s.readLog ++ [w]) ∨ t.readLog = s.readLog)) ∧
  (∀ (es : List HostEvent) (s t : State), runEvents es s = .next t →
    Host.Core.run core es.length { s with pending := es ++ s.pending } = .next t) ∧
  (∀ (e : HostEvent) (es : List HostEvent) (s t : State), hostEvent e s = .next t →
    runEvents (e :: es) s = runEvents es t)

/-- 20_memory.md R52, 93_implementation_defined.md section 2: a step is refused exactly when its access is one R52
refuses (`hostEventWf` of WellFormed.lean lists the addresses on its own), and no step faults. -/
def Obligations.OnlyInadmissibleAccessesAreRefused : Prop :=
  ∀ s : State,
    ((∃ r, step s = .refused r) ↔ ∃ e rest, s.pending = e :: rest ∧ hostEventWf s.cfg e = false) ∧
    (∀ f, step s ≠ .fault f) ∧
    (∀ (i : Instr), ∃ t, exec i s = .next t)

/-- A host whose every event is admitted never has its run refused (20_memory.md R52; 93_implementation_defined.md
section 2: every admitted access and every `CMD` word has a defined outcome). The queue, that it
survives a reset, and that steps past its end are idle are the model's choices (assumptions 3, 7 and 5). -/
def Obligations.AdmittedQueueRunsSafely : Prop :=
  ∀ s : State, (∀ e ∈ s.pending, hostEventWf s.cfg e = true) → Safe s

/-- 10_state.md R30, R31: the configuration registers and that nothing changes them. -/
def Obligations.ConfigurationRegistersAreConstant : Prop :=
  (∀ c : Cfg, (cfgWord c).extractLsb' 0 2 = tritCode c.padTrit ∧
    (cfgWord c).extractLsb' 2 2 = tritCode c.frameTrit ∧ (cfgWord c).extractLsb' 4 28 = 0#28) ∧
  (∀ c : Cfg, c.wf = true → (capNWord c).toNat = c.nMax ∧ (capPWord c).toNat = c.pMax) ∧
  (∀ (s : State) (rest : List HostEvent),
    (s.pending = .read 8 :: rest →
      step s = .next { s with pending := rest, readLog := s.readLog ++ [cfgWord s.cfg] }) ∧
    (s.pending = .read 9 :: rest →
      step s = .next { s with pending := rest, readLog := s.readLog ++ [capNWord s.cfg] }) ∧
    (s.pending = .read 10 :: rest →
      step s = .next { s with pending := rest, readLog := s.readLog ++ [capPWord s.cfg] })) ∧
  (∀ s t : State, step s = .next t → t.cfg = s.cfg)

/-- With no host event pending the state stays as it is: the model's choice (assumption 5). -/
def Obligations.IdleStepChangesNothing : Prop :=
  ∀ s : State, s.pending = [] → step s = .next s

/-- 70_reset_and_hazards.md R232, its examples: commands on reset operands are defined (marked as derived). -/
def Obligations.CommandsRunOnResetOperands : Prop :=
  ∀ c : Cfg,
    exec .capply (State.resetOf c) = .next (failed (State.resetOf c) 6 true 0) ∧
    exec .unframe (State.resetOf c) = .next (failed (State.resetOf c) 3 false 0) ∧
    exec .enc4 (State.resetOf c) = .next (completed { State.resetOf c with
      r := writeTrits (State.resetOf c).r [.minus, .minus, .minus, .minus], rLen := 4 })

/-! ## Laws of the codec over several commands -/

/-- 40_ternary_codec.md R108: `ENC4` then `DEC4` gives back the value, `DEC4` then `ENC4` the trits
(a rule the spec marks as derived). -/
def Obligations.ConversionRoundTrip : Prop :=
  (∀ s : State, Inv s → 0 ≤ s.valIn.toInt → s.valIn.toInt ≤ 80 →
    ∃ t, exec .enc4 s = .next t ∧ t.valid = true ∧
      ∀ s2 : State, ReloadsA t s2 → ∃ u, exec .dec4 s2 = .next u ∧ u.valid = true ∧ u.rVal = s.valIn) ∧
  (∀ (s : State) (d0 d1 d2 d3 : Trit), HoldsA s [d0, d1, d2, d3] →
    ∃ t, exec .dec4 s = .next t ∧ t.valid = true ∧
      ∀ s2 : State, Inv s2 → s2.valIn = t.rVal → ∃ u, exec .enc4 s2 = .next u ∧ u.valid = true ∧
        u.rLen = 4 ∧ ∀ i, i < 4 → cell u.r i = cell s.a i)

/-- 41_tribble_padder.md R135: the round trip of the tribble codec; a wrong pad trit is reported at its position by
`UNPAD` and `DECODE_CORE`; a change of the core trits is never an error and changes the value (a rule the spec
marks as derived). -/
def Obligations.TribbleRoundTripAndPadDetection : Prop :=
  (∀ s : State, Inv s → 0 ≤ s.valIn.toInt → s.valIn.toInt ≤ 80 →
    ∃ t, exec .encodeCore s = .next t ∧ t.valid = true ∧
      ∀ s2 : State, ReloadsA t s2 → ∃ u, exec .decodeCore s2 = .next u ∧ u.valid = true ∧ u.rVal = s.valIn) ∧
  (∀ (i : Instr) (s t : State), i = .encodeCore ∨ i = .pad → Inv s → exec i s = .next t → t.valid = true →
    ∀ (s2 : State) (x : Trit) (q : Nat), q = 0 ∨ q = 5 → x ≠ s.cfg.padTrit → s2.cfg = s.cfg →
      s2.aLen = t.rLen → cell s2.a q = tritCode x → (∀ k, k < 6 → k ≠ q → cell s2.a k = cell t.r k) →
      exec .unpad s2 = .next (failed s2 4 false (BitVec.ofNat 32 q)) ∧
      exec .decodeCore s2 = .next (failed s2 4 false (BitVec.ofNat 32 q))) ∧
  (∀ (s s' : State) (c c' : List Trit), c.length = 4 → c'.length = 4 → c ≠ c' → s'.cfg = s.cfg →
    HoldsA s ([s.cfg.padTrit] ++ c ++ [s.cfg.padTrit]) → HoldsA s' ([s.cfg.padTrit] ++ c' ++ [s.cfg.padTrit]) →
    (∃ t, exec .unpad s' = .next t ∧ t.valid = true) ∧
    ∃ u u', exec .decodeCore s = .next u ∧ exec .decodeCore s' = .next u' ∧
      u.valid = true ∧ u'.valid = true ∧ u.rVal ≠ u'.rVal)

/-- 41_tribble_padder.md R133, corner cases: `ENCODE_CORE` equals `ENC4` followed by `PAD` on its result
(marked as derived). -/
def Obligations.EncodeCoreIsEnc4ThenPad : Prop :=
  ∀ (s t s2 : State), Inv s → exec .enc4 s = .next t → t.valid = true → ReloadsA t s2 →
    ∃ u v, exec .pad s2 = .next u ∧ exec .encodeCore s = .next v ∧
      statusWord u = statusWord v ∧ u.errOffset = v.errOffset ∧ u.rLen = v.rLen ∧
      ∀ i, i < u.rLen.toNat → cell u.r i = cell v.r i

/-- 41_tribble_padder.md R134, corner cases: `DECODE_CORE` equals `UNPAD` followed by `DEC4` on its result, and
reports what `UNPAD` reports where that fails (marked as derived). -/
def Obligations.DecodeCoreIsUnpadThenDec4 : Prop :=
  ∀ (s t : State), Inv s → exec .unpad s = .next t →
    (t.valid = false → exec .decodeCore s = .next t) ∧
    (t.valid = true → ∀ s2 : State, ReloadsA t s2 →
      ∃ u v, exec .dec4 s2 = .next u ∧ exec .decodeCore s = .next v ∧
        statusWord u = statusWord v ∧ u.errOffset = v.errOffset ∧ u.rVal = v.rVal)

/-- 43_carrier.md section 2, the corner case of `CREMOVE` that the spec marks as derived: `CREMOVE` with a pattern is
`CAPPLY` with the pattern of its negated trits, report and result alike. -/
def Obligations.CremoveIsCapplyOfTheNegatedPattern : Prop :=
  ∀ (s s' : State) (x p : List Trit), HoldsA s x → HoldsB s p → p ≠ [] →
    HoldsB s' (p.map negTrit) → s' = { s with b := s'.b } →
    ∃ t, exec .cremove s = .next t ∧ t.valid = true ∧ exec .capply s' = .next { t with b := s'.b }

/-- 42_frame_wrapper.md R163: `UNFRAME` reports a wrong frame trit at its position and nothing between them; a wrong
pad trit inside is then reported by `UNPAD` and `DECODE_CORE`, a wrong core trit by nothing (a rule the spec
marks as derived). -/
def Obligations.FrameDetectsItsEndsOnly : Prop :=
  (∀ (s t : State), Inv s → exec .frame s = .next t → t.valid = true →
    ∀ (s2 : State) (x : Trit) (q : Nat), q = 0 ∨ q = 7 → x ≠ s.cfg.frameTrit → s2.cfg = s.cfg →
      s2.aLen = t.rLen → cell s2.a q = tritCode x → (∀ k, k < 8 → k ≠ q → cell s2.a k = cell t.r k) →
      exec .unframe s2 = .next (failed s2 5 false (BitVec.ofNat 32 q))) ∧
  (∀ (s : State) (x c0 c1 c2 c3 y : Trit), Inv s →
    HoldsA s [s.cfg.frameTrit, x, c0, c1, c2, c3, y, s.cfg.frameTrit] →
    ∃ t, exec .unframe s = .next t ∧ t.valid = true ∧ ∀ s2 : State, ReloadsA t s2 →
      (x ≠ s.cfg.padTrit →
        exec .unpad s2 = .next (failed s2 4 false 0) ∧ exec .decodeCore s2 = .next (failed s2 4 false 0)) ∧
      (x = s.cfg.padTrit → y ≠ s.cfg.padTrit →
        exec .unpad s2 = .next (failed s2 4 false 5) ∧ exec .decodeCore s2 = .next (failed s2 4 false 5)) ∧
      (x = s.cfg.padTrit → y = s.cfg.padTrit →
        ∃ u v, exec .unpad s2 = .next u ∧ exec .decodeCore s2 = .next v ∧ u.valid = true ∧ v.valid = true))

/-- 42_frame_wrapper.md R164: in a stream of framed tribbles with different pad and frame trits, the window one
position after the boundary before unit `k` and the one one position before the boundary after it make
`UNFRAME` report `SYNC_LOSS`, at 0 and at 7; with equal trits the late window passes; and what the two
windows hold (a rule the spec marks as derived). -/
def Obligations.MisalignedWindowLosesSync : Prop :=
  ∀ (s : State) (cores : List (List Trit)) (k : Nat), (∀ c ∈ cores, c.length = 4) → k + 2 ≤ cores.length →
    (s.cfg.padTrit ≠ s.cfg.frameTrit →
      HoldsA s (((framedStream s.cfg cores).drop (8 * k + 1)).take 8) →
      exec .unframe s = .next (failed s 5 false 0)) ∧
    (s.cfg.padTrit ≠ s.cfg.frameTrit →
      HoldsA s (((framedStream s.cfg cores).drop (8 * k + 7)).take 8) →
      exec .unframe s = .next (failed s 5 false 7)) ∧
    (s.cfg.padTrit = s.cfg.frameTrit →
      HoldsA s (((framedStream s.cfg cores).drop (8 * k + 1)).take 8) →
      ∃ t, exec .unframe s = .next t ∧ t.valid = true) ∧
    (∃ c0 c1 c2 c3 : Trit, ((framedStream s.cfg cores).drop (8 * k + 1)).take 8 =
      [s.cfg.padTrit, c0, c1, c2, c3, s.cfg.padTrit, s.cfg.frameTrit, s.cfg.frameTrit]) ∧
    (∃ c0 c1 c2 c3 : Trit, ((framedStream s.cfg cores).drop (8 * k + 7)).take 8 =
      [s.cfg.frameTrit, s.cfg.frameTrit, s.cfg.padTrit, c0, c1, c2, c3, s.cfg.padTrit])

/-- 43_carrier.md R184: overlay and removal with one pattern are inverse, as functions and as commands, for every
length; removal with another pattern need not be, nor with the stream shifted (a rule the spec marks as derived). -/
def Obligations.CarrierRoundTrip : Prop :=
  (∀ x p : List Trit, p ≠ [] → unoverlay (overlay x p) p = x ∧ overlay (unoverlay x p) p = x) ∧
  (∀ (s : State) (x p : List Trit), Inv s → HoldsA s x → HoldsB s p → p ≠ [] →
    ∃ t, exec .capply s = .next t ∧ t.valid = true ∧
      ∀ s2 : State, ReloadsA t s2 → s2.bLen = s.bLen → s2.b = s.b →
        ∃ u, exec .cremove s2 = .next u ∧ u.valid = true ∧ u.rLen = s.aLen ∧
          ∀ i, i < x.length → cell u.r i = cell s.a i) ∧
  (∀ (s : State) (x p : List Trit), Inv s → HoldsA s x → HoldsB s p → p ≠ [] →
    ∃ t, exec .cremove s = .next t ∧ t.valid = true ∧
      ∀ s2 : State, ReloadsA t s2 → s2.bLen = s.bLen → s2.b = s.b →
        ∃ u, exec .capply s2 = .next u ∧ u.valid = true ∧ u.rLen = s.aLen ∧
          ∀ i, i < x.length → cell u.r i = cell s.a i) ∧
  (∃ x p q : List Trit, p ≠ [] ∧ q ≠ [] ∧ unoverlay (overlay x p) q ≠ x) ∧
  (∃ x p : List Trit, p ≠ [] ∧ unoverlay ((overlay x p).drop 1) p ≠ x.drop 1)

/-- 95_test_vectors.md L1-2 through the whole block: every core value survives `ENCODE_CORE`, `FRAME`, `UNFRAME`,
`DECODE_CORE`, the host moving each result into `A`. -/
def Obligations.CoreValueSurvivesTheWholeBlock : Prop :=
  ∀ s0 s1 s2 s3 t0 t1 t2 : State, Inv s0 → 0 ≤ s0.valIn.toInt → s0.valIn.toInt ≤ 80 →
    exec .encodeCore s0 = .next t0 → ReloadsA t0 s1 →
    exec .frame s1 = .next t1 → ReloadsA t1 s2 →
    exec .unframe s2 = .next t2 → ReloadsA t2 s3 →
    ∃ t3, exec .decodeCore s3 = .next t3 ∧ t3.valid = true ∧ t3.rVal = s0.valIn

/-! ## The host's pseudo-accesses -/

/-- 30_encoding.md R78: `wa "s"` and `wb "s"` load a sequence of any length the buffer can hold; nothing else
changes. -/
def Obligations.LoadPseudoAccessesLoadTheSequence : Prop :=
  (∀ (s : State) (ts : List Trit), Inv s → ts.length ≤ s.cfg.nMax →
    ∃ t, runEvents (waEvents ts) s = .next t ∧ HoldsA t ts ∧ Inv t ∧
      t = { s with a := t.a, aLen := t.aLen } ∧
      (∀ i, ts.length ≤ i → i < 16 * ((ts.length + 15) / 16) → cell t.a i = 0b00#2) ∧
      ∀ i, 16 * ((ts.length + 15) / 16) ≤ i → cell t.a i = cell s.a i) ∧
  (∀ (s : State) (ts : List Trit), Inv s → ts.length ≤ s.cfg.pMax →
    ∃ t, runEvents (wbEvents ts) s = .next t ∧ HoldsB t ts ∧ Inv t ∧
      t = { s with b := t.b, bLen := t.bLen } ∧
      (∀ i, ts.length ≤ i → i < 16 * ((ts.length + 15) / 16) → cell t.b i = 0b00#2) ∧
      ∀ i, 16 * ((ts.length + 15) / 16) ≤ i → cell t.b i = cell s.b i)

/-- 30_encoding.md R78: `mov_ra` moves the result of a command into `A`: it is what `ReloadsA` says; the
words it writes back carry the cells of `R` up to the end of the last one, later cells of `A` stay, and nothing else
changes but the record of the words it read (the model's own field, assumption 4). -/
def Obligations.MovRaReloadsTheResult : Prop :=
  ∀ s : State, Inv s →
    ∃ t, runEvents (movRaEvents s) s = .next t ∧ ReloadsA s t ∧
      (∀ i, i < 16 * ((s.rLen.toNat + 15) / 16) → cell t.a i = cell s.r i) ∧
      (∀ i, 16 * ((s.rLen.toNat + 15) / 16) ≤ i → cell t.a i = cell s.a i) ∧
      t = { s with a := t.a, aLen := s.rLen, readLog := t.readLog } ∧
      t.readLog = s.readLog ++ [s.rLen] ++
        (List.range ((s.rLen.toNat + 15) / 16)).map (fun k => packWord s.r k)

/-- 30_encoding.md R78: `mov_ra j, n` copies cells `R[j .. j+n-1]` to `A[0 .. n-1]` and sets `A_LEN = n`, whatever the
free values it writes into the rest of the last word are (the model's choice, assumption 11); the later cells stay, and
it reads exactly the words that hold the cells, each once; above `R_LEN` it is not defined. -/
def Obligations.MovRaSliceCopiesTheCells : Prop :=
  ∀ (s : State) (j n : Nat), Inv s →
    (j + n ≤ s.rLen.toNat → ∃ es t, movRaSliceEvents s j n = some es ∧ runEvents es s = .next t ∧
      t.aLen.toNat = n ∧ (∀ i, i < n → cell t.a i = cell s.r (j + i)) ∧ Inv t ∧
      (∀ i, 16 * ((n + 15) / 16) ≤ i → cell t.a i = cell s.a i) ∧
      t = { s with a := t.a, aLen := t.aLen, readLog := t.readLog } ∧
      ∃ ks : List Nat, ks.Nodup ∧ (∀ k, k ∈ ks ↔ ∃ i, i < n ∧ (j + i) / 16 = k) ∧
        t.readLog = s.readLog ++ ks.map (fun k => packWord s.r k)) ∧
    (s.rLen.toNat < j + n → movRaSliceEvents s j n = none)

/-! ## The queue's invariant -/

/-- An admitted queue stays admitted: where every pending event is one that 20_memory.md R52 and 70_reset_and_hazards.md
R230 admit, a step answers a next state, of which the same holds. The queue, and that it survives a reset, are the
model's choices (assumptions 3 and 7), and so is the idle step (assumption 5). -/
def Obligations.AdmittedQueueStaysAdmitted : Prop :=
  ∀ s : State, (∀ e ∈ s.pending, hostEventWf s.cfg e = true) →
    ∃ t, step s = .next t ∧ ∀ e ∈ t.pending, hostEventWf t.cfg e = true
end

