-- ==== Sys2Proof/Laws/State.lean ====
section
/-! SUPPORT. One lemma per field of the state per named update of Machine/Ops.lean, so that no proof unfolds a
record update; and how the updates meet. -/

namespace Sys2Proof.Machine

variable (s : State)

@[simp] theorem State.report_cmd (v : Bool) (c : BitVec 4) (o : Bool) (f : Word) : (s.report v c o f).cmd = s.cmd := rfl
@[simp] theorem State.report_valid (v : Bool) (c : BitVec 4) (o : Bool) (f : Word) : (s.report v c o f).valid = v := rfl
@[simp] theorem State.report_code (v : Bool) (c : BitVec 4) (o : Bool) (f : Word) : (s.report v c o f).code = c := rfl
@[simp] theorem State.report_errOperand (v : Bool) (c : BitVec 4) (o : Bool) (f : Word) : (s.report v c o f).errOperand = o := rfl
@[simp] theorem State.report_errOffset (v : Bool) (c : BitVec 4) (o : Bool) (f : Word) : (s.report v c o f).errOffset = f := rfl
@[simp] theorem State.report_valIn (v : Bool) (c : BitVec 4) (o : Bool) (f : Word) : (s.report v c o f).valIn = s.valIn := rfl
@[simp] theorem State.report_rVal (v : Bool) (c : BitVec 4) (o : Bool) (f : Word) : (s.report v c o f).rVal = s.rVal := rfl
@[simp] theorem State.report_aLen (v : Bool) (c : BitVec 4) (o : Bool) (f : Word) : (s.report v c o f).aLen = s.aLen := rfl
@[simp] theorem State.report_a (v : Bool) (c : BitVec 4) (o : Bool) (f : Word) : (s.report v c o f).a = s.a := rfl
@[simp] theorem State.report_bLen (v : Bool) (c : BitVec 4) (o : Bool) (f : Word) : (s.report v c o f).bLen = s.bLen := rfl
@[simp] theorem State.report_b (v : Bool) (c : BitVec 4) (o : Bool) (f : Word) : (s.report v c o f).b = s.b := rfl
@[simp] theorem State.report_rLen (v : Bool) (c : BitVec 4) (o : Bool) (f : Word) : (s.report v c o f).rLen = s.rLen := rfl
@[simp] theorem State.report_r (v : Bool) (c : BitVec 4) (o : Bool) (f : Word) : (s.report v c o f).r = s.r := rfl
@[simp] theorem State.report_cfg (v : Bool) (c : BitVec 4) (o : Bool) (f : Word) : (s.report v c o f).cfg = s.cfg := rfl
@[simp] theorem State.report_pending (v : Bool) (c : BitVec 4) (o : Bool) (f : Word) : (s.report v c o f).pending = s.pending := rfl
@[simp] theorem State.report_readLog (v : Bool) (c : BitVec 4) (o : Bool) (f : Word) : (s.report v c o f).readLog = s.readLog := rfl

@[simp] theorem State.putVec_cmd (ts : List Trit) : (s.putVec ts).cmd = s.cmd := rfl
@[simp] theorem State.putVec_valid (ts : List Trit) : (s.putVec ts).valid = s.valid := rfl
@[simp] theorem State.putVec_code (ts : List Trit) : (s.putVec ts).code = s.code := rfl
@[simp] theorem State.putVec_errOperand (ts : List Trit) : (s.putVec ts).errOperand = s.errOperand := rfl
@[simp] theorem State.putVec_errOffset (ts : List Trit) : (s.putVec ts).errOffset = s.errOffset := rfl
@[simp] theorem State.putVec_valIn (ts : List Trit) : (s.putVec ts).valIn = s.valIn := rfl
@[simp] theorem State.putVec_rVal (ts : List Trit) : (s.putVec ts).rVal = s.rVal := rfl
@[simp] theorem State.putVec_aLen (ts : List Trit) : (s.putVec ts).aLen = s.aLen := rfl
@[simp] theorem State.putVec_a (ts : List Trit) : (s.putVec ts).a = s.a := rfl
@[simp] theorem State.putVec_bLen (ts : List Trit) : (s.putVec ts).bLen = s.bLen := rfl
@[simp] theorem State.putVec_b (ts : List Trit) : (s.putVec ts).b = s.b := rfl
@[simp] theorem State.putVec_rLen (ts : List Trit) : (s.putVec ts).rLen = BitVec.ofNat 32 ts.length := rfl
@[simp] theorem State.putVec_r (ts : List Trit) : (s.putVec ts).r = writeTrits s.r ts := rfl
@[simp] theorem State.putVec_cfg (ts : List Trit) : (s.putVec ts).cfg = s.cfg := rfl
@[simp] theorem State.putVec_pending (ts : List Trit) : (s.putVec ts).pending = s.pending := rfl
@[simp] theorem State.putVec_readLog (ts : List Trit) : (s.putVec ts).readLog = s.readLog := rfl

@[simp] theorem State.putVal_cmd (v : Int) : (s.putVal v).cmd = s.cmd := rfl
@[simp] theorem State.putVal_valid (v : Int) : (s.putVal v).valid = s.valid := rfl
@[simp] theorem State.putVal_code (v : Int) : (s.putVal v).code = s.code := rfl
@[simp] theorem State.putVal_errOperand (v : Int) : (s.putVal v).errOperand = s.errOperand := rfl
@[simp] theorem State.putVal_errOffset (v : Int) : (s.putVal v).errOffset = s.errOffset := rfl
@[simp] theorem State.putVal_valIn (v : Int) : (s.putVal v).valIn = s.valIn := rfl
@[simp] theorem State.putVal_rVal (v : Int) : (s.putVal v).rVal = BitVec.ofNat 32 v.toNat := rfl
@[simp] theorem State.putVal_aLen (v : Int) : (s.putVal v).aLen = s.aLen := rfl
@[simp] theorem State.putVal_a (v : Int) : (s.putVal v).a = s.a := rfl
@[simp] theorem State.putVal_bLen (v : Int) : (s.putVal v).bLen = s.bLen := rfl
@[simp] theorem State.putVal_b (v : Int) : (s.putVal v).b = s.b := rfl
@[simp] theorem State.putVal_rLen (v : Int) : (s.putVal v).rLen = s.rLen := rfl
@[simp] theorem State.putVal_r (v : Int) : (s.putVal v).r = s.r := rfl
@[simp] theorem State.putVal_cfg (v : Int) : (s.putVal v).cfg = s.cfg := rfl
@[simp] theorem State.putVal_pending (v : Int) : (s.putVal v).pending = s.pending := rfl
@[simp] theorem State.putVal_readLog (v : Int) : (s.putVal v).readLog = s.readLog := rfl

@[simp] theorem State.putCmd_cmd (w : Word) : (s.putCmd w).cmd = w := rfl
@[simp] theorem State.putCmd_valid (w : Word) : (s.putCmd w).valid = s.valid := rfl
@[simp] theorem State.putCmd_code (w : Word) : (s.putCmd w).code = s.code := rfl
@[simp] theorem State.putCmd_errOperand (w : Word) : (s.putCmd w).errOperand = s.errOperand := rfl
@[simp] theorem State.putCmd_errOffset (w : Word) : (s.putCmd w).errOffset = s.errOffset := rfl
@[simp] theorem State.putCmd_valIn (w : Word) : (s.putCmd w).valIn = s.valIn := rfl
@[simp] theorem State.putCmd_rVal (w : Word) : (s.putCmd w).rVal = s.rVal := rfl
@[simp] theorem State.putCmd_aLen (w : Word) : (s.putCmd w).aLen = s.aLen := rfl
@[simp] theorem State.putCmd_a (w : Word) : (s.putCmd w).a = s.a := rfl
@[simp] theorem State.putCmd_bLen (w : Word) : (s.putCmd w).bLen = s.bLen := rfl
@[simp] theorem State.putCmd_b (w : Word) : (s.putCmd w).b = s.b := rfl
@[simp] theorem State.putCmd_rLen (w : Word) : (s.putCmd w).rLen = s.rLen := rfl
@[simp] theorem State.putCmd_r (w : Word) : (s.putCmd w).r = s.r := rfl
@[simp] theorem State.putCmd_cfg (w : Word) : (s.putCmd w).cfg = s.cfg := rfl
@[simp] theorem State.putCmd_pending (w : Word) : (s.putCmd w).pending = s.pending := rfl
@[simp] theorem State.putCmd_readLog (w : Word) : (s.putCmd w).readLog = s.readLog := rfl

@[simp] theorem State.putValIn_cmd (w : Word) : (s.putValIn w).cmd = s.cmd := rfl
@[simp] theorem State.putValIn_valid (w : Word) : (s.putValIn w).valid = s.valid := rfl
@[simp] theorem State.putValIn_code (w : Word) : (s.putValIn w).code = s.code := rfl
@[simp] theorem State.putValIn_errOperand (w : Word) : (s.putValIn w).errOperand = s.errOperand := rfl
@[simp] theorem State.putValIn_errOffset (w : Word) : (s.putValIn w).errOffset = s.errOffset := rfl
@[simp] theorem State.putValIn_valIn (w : Word) : (s.putValIn w).valIn = w := rfl
@[simp] theorem State.putValIn_rVal (w : Word) : (s.putValIn w).rVal = s.rVal := rfl
@[simp] theorem State.putValIn_aLen (w : Word) : (s.putValIn w).aLen = s.aLen := rfl
@[simp] theorem State.putValIn_a (w : Word) : (s.putValIn w).a = s.a := rfl
@[simp] theorem State.putValIn_bLen (w : Word) : (s.putValIn w).bLen = s.bLen := rfl
@[simp] theorem State.putValIn_b (w : Word) : (s.putValIn w).b = s.b := rfl
@[simp] theorem State.putValIn_rLen (w : Word) : (s.putValIn w).rLen = s.rLen := rfl
@[simp] theorem State.putValIn_r (w : Word) : (s.putValIn w).r = s.r := rfl
@[simp] theorem State.putValIn_cfg (w : Word) : (s.putValIn w).cfg = s.cfg := rfl
@[simp] theorem State.putValIn_pending (w : Word) : (s.putValIn w).pending = s.pending := rfl
@[simp] theorem State.putValIn_readLog (w : Word) : (s.putValIn w).readLog = s.readLog := rfl

@[simp] theorem State.putALen_cmd (w : Word) : (s.putALen w).cmd = s.cmd := rfl
@[simp] theorem State.putALen_valid (w : Word) : (s.putALen w).valid = s.valid := rfl
@[simp] theorem State.putALen_code (w : Word) : (s.putALen w).code = s.code := rfl
@[simp] theorem State.putALen_errOperand (w : Word) : (s.putALen w).errOperand = s.errOperand := rfl
@[simp] theorem State.putALen_errOffset (w : Word) : (s.putALen w).errOffset = s.errOffset := rfl
@[simp] theorem State.putALen_valIn (w : Word) : (s.putALen w).valIn = s.valIn := rfl
@[simp] theorem State.putALen_rVal (w : Word) : (s.putALen w).rVal = s.rVal := rfl
@[simp] theorem State.putALen_aLen (w : Word) : (s.putALen w).aLen = w := rfl
@[simp] theorem State.putALen_a (w : Word) : (s.putALen w).a = s.a := rfl
@[simp] theorem State.putALen_bLen (w : Word) : (s.putALen w).bLen = s.bLen := rfl
@[simp] theorem State.putALen_b (w : Word) : (s.putALen w).b = s.b := rfl
@[simp] theorem State.putALen_rLen (w : Word) : (s.putALen w).rLen = s.rLen := rfl
@[simp] theorem State.putALen_r (w : Word) : (s.putALen w).r = s.r := rfl
@[simp] theorem State.putALen_cfg (w : Word) : (s.putALen w).cfg = s.cfg := rfl
@[simp] theorem State.putALen_pending (w : Word) : (s.putALen w).pending = s.pending := rfl
@[simp] theorem State.putALen_readLog (w : Word) : (s.putALen w).readLog = s.readLog := rfl

@[simp] theorem State.putBLen_cmd (w : Word) : (s.putBLen w).cmd = s.cmd := rfl
@[simp] theorem State.putBLen_valid (w : Word) : (s.putBLen w).valid = s.valid := rfl
@[simp] theorem State.putBLen_code (w : Word) : (s.putBLen w).code = s.code := rfl
@[simp] theorem State.putBLen_errOperand (w : Word) : (s.putBLen w).errOperand = s.errOperand := rfl
@[simp] theorem State.putBLen_errOffset (w : Word) : (s.putBLen w).errOffset = s.errOffset := rfl
@[simp] theorem State.putBLen_valIn (w : Word) : (s.putBLen w).valIn = s.valIn := rfl
@[simp] theorem State.putBLen_rVal (w : Word) : (s.putBLen w).rVal = s.rVal := rfl
@[simp] theorem State.putBLen_aLen (w : Word) : (s.putBLen w).aLen = s.aLen := rfl
@[simp] theorem State.putBLen_a (w : Word) : (s.putBLen w).a = s.a := rfl
@[simp] theorem State.putBLen_bLen (w : Word) : (s.putBLen w).bLen = w := rfl
@[simp] theorem State.putBLen_b (w : Word) : (s.putBLen w).b = s.b := rfl
@[simp] theorem State.putBLen_rLen (w : Word) : (s.putBLen w).rLen = s.rLen := rfl
@[simp] theorem State.putBLen_r (w : Word) : (s.putBLen w).r = s.r := rfl
@[simp] theorem State.putBLen_cfg (w : Word) : (s.putBLen w).cfg = s.cfg := rfl
@[simp] theorem State.putBLen_pending (w : Word) : (s.putBLen w).pending = s.pending := rfl
@[simp] theorem State.putBLen_readLog (w : Word) : (s.putBLen w).readLog = s.readLog := rfl

@[simp] theorem State.putA_cmd (buf : TritBuf) : (s.putA buf).cmd = s.cmd := rfl
@[simp] theorem State.putA_valid (buf : TritBuf) : (s.putA buf).valid = s.valid := rfl
@[simp] theorem State.putA_code (buf : TritBuf) : (s.putA buf).code = s.code := rfl
@[simp] theorem State.putA_errOperand (buf : TritBuf) : (s.putA buf).errOperand = s.errOperand := rfl
@[simp] theorem State.putA_errOffset (buf : TritBuf) : (s.putA buf).errOffset = s.errOffset := rfl
@[simp] theorem State.putA_valIn (buf : TritBuf) : (s.putA buf).valIn = s.valIn := rfl
@[simp] theorem State.putA_rVal (buf : TritBuf) : (s.putA buf).rVal = s.rVal := rfl
@[simp] theorem State.putA_aLen (buf : TritBuf) : (s.putA buf).aLen = s.aLen := rfl
@[simp] theorem State.putA_a (buf : TritBuf) : (s.putA buf).a = buf := rfl
@[simp] theorem State.putA_bLen (buf : TritBuf) : (s.putA buf).bLen = s.bLen := rfl
@[simp] theorem State.putA_b (buf : TritBuf) : (s.putA buf).b = s.b := rfl
@[simp] theorem State.putA_rLen (buf : TritBuf) : (s.putA buf).rLen = s.rLen := rfl
@[simp] theorem State.putA_r (buf : TritBuf) : (s.putA buf).r = s.r := rfl
@[simp] theorem State.putA_cfg (buf : TritBuf) : (s.putA buf).cfg = s.cfg := rfl
@[simp] theorem State.putA_pending (buf : TritBuf) : (s.putA buf).pending = s.pending := rfl
@[simp] theorem State.putA_readLog (buf : TritBuf) : (s.putA buf).readLog = s.readLog := rfl

@[simp] theorem State.putB_cmd (buf : TritBuf) : (s.putB buf).cmd = s.cmd := rfl
@[simp] theorem State.putB_valid (buf : TritBuf) : (s.putB buf).valid = s.valid := rfl
@[simp] theorem State.putB_code (buf : TritBuf) : (s.putB buf).code = s.code := rfl
@[simp] theorem State.putB_errOperand (buf : TritBuf) : (s.putB buf).errOperand = s.errOperand := rfl
@[simp] theorem State.putB_errOffset (buf : TritBuf) : (s.putB buf).errOffset = s.errOffset := rfl
@[simp] theorem State.putB_valIn (buf : TritBuf) : (s.putB buf).valIn = s.valIn := rfl
@[simp] theorem State.putB_rVal (buf : TritBuf) : (s.putB buf).rVal = s.rVal := rfl
@[simp] theorem State.putB_aLen (buf : TritBuf) : (s.putB buf).aLen = s.aLen := rfl
@[simp] theorem State.putB_a (buf : TritBuf) : (s.putB buf).a = s.a := rfl
@[simp] theorem State.putB_bLen (buf : TritBuf) : (s.putB buf).bLen = s.bLen := rfl
@[simp] theorem State.putB_b (buf : TritBuf) : (s.putB buf).b = buf := rfl
@[simp] theorem State.putB_rLen (buf : TritBuf) : (s.putB buf).rLen = s.rLen := rfl
@[simp] theorem State.putB_r (buf : TritBuf) : (s.putB buf).r = s.r := rfl
@[simp] theorem State.putB_cfg (buf : TritBuf) : (s.putB buf).cfg = s.cfg := rfl
@[simp] theorem State.putB_pending (buf : TritBuf) : (s.putB buf).pending = s.pending := rfl
@[simp] theorem State.putB_readLog (buf : TritBuf) : (s.putB buf).readLog = s.readLog := rfl

@[simp] theorem State.putPending_cmd (es : List HostEvent) : (s.putPending es).cmd = s.cmd := rfl
@[simp] theorem State.putPending_valid (es : List HostEvent) : (s.putPending es).valid = s.valid := rfl
@[simp] theorem State.putPending_code (es : List HostEvent) : (s.putPending es).code = s.code := rfl
@[simp] theorem State.putPending_errOperand (es : List HostEvent) : (s.putPending es).errOperand = s.errOperand := rfl
@[simp] theorem State.putPending_errOffset (es : List HostEvent) : (s.putPending es).errOffset = s.errOffset := rfl
@[simp] theorem State.putPending_valIn (es : List HostEvent) : (s.putPending es).valIn = s.valIn := rfl
@[simp] theorem State.putPending_rVal (es : List HostEvent) : (s.putPending es).rVal = s.rVal := rfl
@[simp] theorem State.putPending_aLen (es : List HostEvent) : (s.putPending es).aLen = s.aLen := rfl
@[simp] theorem State.putPending_a (es : List HostEvent) : (s.putPending es).a = s.a := rfl
@[simp] theorem State.putPending_bLen (es : List HostEvent) : (s.putPending es).bLen = s.bLen := rfl
@[simp] theorem State.putPending_b (es : List HostEvent) : (s.putPending es).b = s.b := rfl
@[simp] theorem State.putPending_rLen (es : List HostEvent) : (s.putPending es).rLen = s.rLen := rfl
@[simp] theorem State.putPending_r (es : List HostEvent) : (s.putPending es).r = s.r := rfl
@[simp] theorem State.putPending_cfg (es : List HostEvent) : (s.putPending es).cfg = s.cfg := rfl
@[simp] theorem State.putPending_pending (es : List HostEvent) : (s.putPending es).pending = es := rfl
@[simp] theorem State.putPending_readLog (es : List HostEvent) : (s.putPending es).readLog = s.readLog := rfl

@[simp] theorem State.logRead_cmd (w : Word) : (s.logRead w).cmd = s.cmd := rfl
@[simp] theorem State.logRead_valid (w : Word) : (s.logRead w).valid = s.valid := rfl
@[simp] theorem State.logRead_code (w : Word) : (s.logRead w).code = s.code := rfl
@[simp] theorem State.logRead_errOperand (w : Word) : (s.logRead w).errOperand = s.errOperand := rfl
@[simp] theorem State.logRead_errOffset (w : Word) : (s.logRead w).errOffset = s.errOffset := rfl
@[simp] theorem State.logRead_valIn (w : Word) : (s.logRead w).valIn = s.valIn := rfl
@[simp] theorem State.logRead_rVal (w : Word) : (s.logRead w).rVal = s.rVal := rfl
@[simp] theorem State.logRead_aLen (w : Word) : (s.logRead w).aLen = s.aLen := rfl
@[simp] theorem State.logRead_a (w : Word) : (s.logRead w).a = s.a := rfl
@[simp] theorem State.logRead_bLen (w : Word) : (s.logRead w).bLen = s.bLen := rfl
@[simp] theorem State.logRead_b (w : Word) : (s.logRead w).b = s.b := rfl
@[simp] theorem State.logRead_rLen (w : Word) : (s.logRead w).rLen = s.rLen := rfl
@[simp] theorem State.logRead_r (w : Word) : (s.logRead w).r = s.r := rfl
@[simp] theorem State.logRead_cfg (w : Word) : (s.logRead w).cfg = s.cfg := rfl
@[simp] theorem State.logRead_pending (w : Word) : (s.logRead w).pending = s.pending := rfl
@[simp] theorem State.logRead_readLog (w : Word) : (s.logRead w).readLog = s.readLog ++ [w] := rfl

/-- Every command writes the four report fields, so an earlier report never shows through (R20, R28). -/
@[simp] theorem State.report_report (v v' : Bool) (c c' : BitVec 4) (o o' : Bool) (f f' : Word) :
    (s.report v c o f).report v' c' o' f' = s.report v' c' o' f' := rfl

/-! The host's queue is apart from the block: taking an event off it commutes with every other update. -/

theorem State.putPending_report_comm (es : List HostEvent) (v : Bool) (c : BitVec 4) (o : Bool) (f : Word) :
    (s.putPending es).report v c o f = (s.report v c o f).putPending es := rfl
theorem State.putPending_putVec_comm (es : List HostEvent) (ts : List Trit) :
    (s.putPending es).putVec ts = (s.putVec ts).putPending es := rfl
theorem State.putPending_putVal_comm (es : List HostEvent) (v : Int) :
    (s.putPending es).putVal v = (s.putVal v).putPending es := rfl
theorem State.putPending_putCmd_comm (es : List HostEvent) (w : Word) :
    (s.putPending es).putCmd w = (s.putCmd w).putPending es := rfl
theorem State.putPending_putValIn_comm (es : List HostEvent) (w : Word) :
    (s.putPending es).putValIn w = (s.putValIn w).putPending es := rfl
theorem State.putPending_putALen_comm (es : List HostEvent) (w : Word) :
    (s.putPending es).putALen w = (s.putALen w).putPending es := rfl
theorem State.putPending_putBLen_comm (es : List HostEvent) (w : Word) :
    (s.putPending es).putBLen w = (s.putBLen w).putPending es := rfl
theorem State.putPending_putA_comm (es : List HostEvent) (buf : TritBuf) :
    (s.putPending es).putA buf = (s.putA buf).putPending es := rfl
theorem State.putPending_putB_comm (es : List HostEvent) (buf : TritBuf) :
    (s.putPending es).putB buf = (s.putB buf).putPending es := rfl
@[simp] theorem State.putPending_putPending (es es' : List HostEvent) :
    (s.putPending es).putPending es' = s.putPending es' := rfl
theorem State.putPending_logRead_comm (es : List HostEvent) (w : Word) :
    (s.putPending es).logRead w = (s.logRead w).putPending es := rfl

end Sys2Proof.Machine
end

