-- ==== Sys2Proof/Laws/Trits.lean ====
section
/-! SUPPORT. What the trit functions of Machine/Trits.lean and the codes of Decode.lean do. -/

namespace Sys2Proof

@[simp] theorem codeTrit_tritCode (t : Trit) : codeTrit (tritCode t) = some t := by cases t <;> rfl

@[simp] theorem codeValid_tritCode (t : Trit) : codeValid (tritCode t) = true := by cases t <;> rfl

theorem tritCode_ne_reserved (t : Trit) : tritCode t ≠ 0b10#2 := by cases t <;> decide

theorem tritCode_inj {t u : Trit} : tritCode t = tritCode u ↔ t = u := by
  cases t <;> cases u <;> decide

theorem codeTrit_eq_some {c : Code} {t : Trit} : codeTrit c = some t ↔ c = tritCode t := by
  revert c; cases t <;> decide

/-- The reserved code is the only one that names no trit (R71). -/
theorem codeValid_eq_false {c : Code} : codeValid c = false ↔ c = 0b10#2 := by
  revert c; decide

theorem codeValid_eq_true {c : Code} : codeValid c = true ↔ c ≠ 0b10#2 := by
  revert c; decide

namespace Machine

@[simp] theorem intTrit_tritInt (t : Trit) : intTrit (tritInt t) = t := by cases t <;> rfl

theorem tritInt_inj {t u : Trit} : tritInt t = tritInt u ↔ t = u := by
  cases t <;> cases u <;> decide

theorem tritInt_bounds (t : Trit) : -1 ≤ tritInt t ∧ tritInt t ≤ 1 := by cases t <;> decide

theorem tritInt_intTrit {n : Int} (h₁ : -1 ≤ n) (h₂ : n ≤ 1) : tritInt (intTrit n) = n := by
  unfold intTrit
  split_ifs <;> simp only [tritInt] <;> omega

theorem balDigit_bounds (n : Int) : -1 ≤ balDigit n ∧ balDigit n ≤ 1 := by
  unfold balDigit; omega

@[simp] theorem tritInt_intTrit_balDigit (n : Int) : tritInt (intTrit (balDigit n)) = balDigit n :=
  tritInt_intTrit (balDigit_bounds n).1 (balDigit_bounds n).2

@[simp] theorem balDigitsFrom_length (k : Nat) (n : Int) : (balDigitsFrom k n).length = k := by
  induction k generalizing n with
  | zero => rfl
  | succ k ih => simp [balDigitsFrom, ih]

@[simp] theorem balDigits_length (n : Int) : (balDigits n).length = 4 := balDigitsFrom_length 4 n

/-- A sequence of four trits, by its trits. -/
theorem four_trits {d : List Trit} (h : d.length = 4) : ∃ d0 d1 d2 d3, d = [d0, d1, d2, d3] := by
  match d, h with
  | [d0, d1, d2, d3], _ => exact ⟨d0, d1, d2, d3, rfl⟩

theorem balValue_four (d0 d1 d2 d3 : Trit) :
    balValue [d0, d1, d2, d3] = tritInt d0 + 3 * tritInt d1 + 9 * tritInt d2 + 27 * tritInt d3 := by
  simp only [balValue, balValueFrom]; ring

@[simp] theorem padTrits_length (c : Cfg) (ts : List Trit) : (padTrits c ts).length = ts.length + 2 := by
  simp [padTrits]

@[simp] theorem frameTrits_length (c : Cfg) (ts : List Trit) : (frameTrits c ts).length = ts.length + 2 := by
  simp [frameTrits]

@[simp] theorem overlayWith_length (f : Trit → Trit → Trit) (s p : List Trit) :
    (overlayWith f s p).length = s.length := by simp [overlayWith]

@[simp] theorem overlay_length (s p : List Trit) : (overlay s p).length = s.length :=
  overlayWith_length _ s p

@[simp] theorem unoverlay_length (s p : List Trit) : (unoverlay s p).length = s.length :=
  overlayWith_length _ s p

theorem overlayWith_getElem? (f : Trit → Trit → Trit) (s p : List Trit) (i : Nat) :
    (overlayWith f s p)[i]? = s[i]?.map fun t => f t (patternTrit p i) := by
  simp [overlayWith]

theorem patternTrit_eq {p : List Trit} {i : Nat} {b : Trit} (h : p[i % p.length]? = some b) :
    patternTrit p i = b := by simp [patternTrit, h]

end Machine
end Sys2Proof
end

