-- ==== Sys2Proof/Laws/Ops.lean ====
section
/-! SUPPORT. What the operations of Machine/Ops.lean do: cells, data words, and the ways a command ends. -/

namespace Sys2Proof.Machine

/-! ## Cells -/

theorem cell_set (buf : TritBuf) (i j : Nat) (c : Code) :
    cell (buf.set i c) j = if i = j ∧ j < buf.length then c else cell buf j := by
  unfold cell
  rw [List.getD_eq_getElem?_getD, List.getD_eq_getElem?_getD, List.getElem?_set]
  by_cases h : i = j
  · subst h
    by_cases h' : i < buf.length <;> simp [h']
  · simp [h]

theorem cell_of_length_le {buf : TritBuf} {i : Nat} (h : buf.length ≤ i) : cell buf i = 0 := by
  simp [cell, h]

@[simp] theorem writeTritsFrom_length (buf : TritBuf) (i : Nat) (ts : List Trit) :
    (writeTritsFrom buf i ts).length = buf.length := by
  induction ts generalizing buf i with
  | nil => rfl
  | cons t ts ih => simp [writeTritsFrom, ih]

@[simp] theorem writeTrits_length (buf : TritBuf) (ts : List Trit) :
    (writeTrits buf ts).length = buf.length := writeTritsFrom_length buf 0 ts

/-- A write from cell `i` on: cell `j` gets trit `j - i` of the sequence if there is one and the cell exists,
and stays otherwise (R24). -/
theorem cell_writeTritsFrom (buf : TritBuf) (i : Nat) (ts : List Trit) (j : Nat) :
    cell (writeTritsFrom buf i ts) j =
      if i ≤ j ∧ j < buf.length then ((ts[j - i]?).map tritCode).getD (cell buf j) else cell buf j := by
  induction ts generalizing buf i with
  | nil => simp [writeTritsFrom]
  | cons t ts ih =>
    rw [writeTritsFrom, ih, cell_set, List.length_set]
    by_cases h1 : i + 1 ≤ j
    · have h2 : j - i = (j - (i + 1)) + 1 := by omega
      have h3 : i ≠ j := by omega
      have h4 : i ≤ j := by omega
      simp [h1, h2, h3, h4]
    · by_cases h2 : i = j
      · subst h2
        by_cases h3 : i < buf.length <;> simp [h3]
      · have h3 : ¬ i ≤ j := by omega
        simp [h1, h2, h3]

/-- A written cell holds the code of its trit (R24). -/
theorem cell_writeTrits_lt {buf : TritBuf} {ts : List Trit} {j : Nat} (h : j < ts.length)
    (hb : j < buf.length) : cell (writeTrits buf ts) j = tritCode ts[j] := by
  simp [writeTrits, cell_writeTritsFrom, h, hb]

/-- A cell at or above the length of the sequence stays (R24). -/
theorem cell_writeTrits_ge {buf : TritBuf} {ts : List Trit} {j : Nat} (h : ts.length ≤ j) :
    cell (writeTrits buf ts) j = cell buf j := by
  simp [writeTrits, cell_writeTritsFrom, h]

theorem mem_writeTritsFrom {buf : TritBuf} {i : Nat} {ts : List Trit} {c : Code}
    (h : c ∈ writeTritsFrom buf i ts) : c ∈ buf ∨ ∃ t, c = tritCode t := by
  induction ts generalizing buf i with
  | nil => exact .inl h
  | cons t ts ih =>
    obtain h | h := ih h
    · obtain h | h := List.mem_or_eq_of_mem_set h
      · exact .inl h
      · exact .inr ⟨t, h⟩
    · exact .inr h

/-- Only codes of trits are written, so valid cells stay valid (R71). -/
theorem writeTrits_valid {buf : TritBuf} {ts : List Trit} (h : ∀ c ∈ buf, codeValid c = true) :
    ∀ c ∈ writeTrits buf ts, codeValid c = true := by
  intro c hc
  obtain hc | ⟨t, rfl⟩ := mem_writeTritsFrom hc
  · exact h c hc
  · simp

theorem buf_ext {b₁ b₂ : TritBuf} (hl : b₁.length = b₂.length) (h : ∀ i, cell b₁ i = cell b₂ i) :
    b₁ = b₂ := by
  refine List.ext_getElem hl fun i h₁ h₂ => ?_
  simpa [cell, h₁, h₂] using h i

/-- Writing the same sequence twice is writing it once (R56). -/
@[simp] theorem writeTrits_writeTrits (buf : TritBuf) (ts : List Trit) :
    writeTrits (writeTrits buf ts) ts = writeTrits buf ts := by
  refine buf_ext (by simp) fun i => ?_
  by_cases h : i < ts.length
  · by_cases hb : i < buf.length
    · rw [cell_writeTrits_lt h (by simpa using hb), cell_writeTrits_lt h hb]
    · rw [cell_of_length_le (by simpa using hb), cell_of_length_le (by simpa using hb)]
  · rw [cell_writeTrits_ge (by omega)]

/-! ## Data words -/

theorem packFrom_lt (buf : TritBuf) (i n : Nat) : packFrom buf i n < 4 ^ n := by
  induction n generalizing i with
  | zero => simp [packFrom]
  | succ n ih =>
    have h1 := ih (i + 1)
    have h2 := (cell buf i).isLt
    rw [packFrom, pow_succ]
    omega

theorem packFrom_digit (buf : TritBuf) (i n j : Nat) (h : j < n) :
    packFrom buf i n / 4 ^ j % 4 = (cell buf (i + j)).toNat := by
  induction n generalizing i j with
  | zero => omega
  | succ n ih =>
    have h2 := (cell buf i).isLt
    cases j with
    | zero => simp [packFrom]; omega
    | succ j =>
      have h3 : i + (j + 1) = i + 1 + j := by omega
      have h4 : packFrom buf i (n + 1) / 4 = packFrom buf (i + 1) n := by
        rw [packFrom]; omega
      rw [h3, ← ih (i + 1) j (by omega), pow_succ', ← Nat.div_div_eq_div_mul, h4]

theorem wordCode_ofNat {p : Nat} (h : p < 2 ^ 32) (j : Nat) :
    (wordCode (BitVec.ofNat 32 p) j).toNat = p / 4 ^ j % 4 := by
  have h3 : (2 : Nat) ^ (2 * j) = 4 ^ j := by rw [pow_mul]; rfl
  rw [wordCode, BitVec.extractLsb'_toNat, BitVec.toNat_ofNat, Nat.mod_eq_of_lt h,
    Nat.shiftRight_eq_div_pow, h3]

/-- R53: bits `[2j+1 : 2j]` of data word `k` are cell `16k + j`. -/
theorem wordCode_packWord (buf : TritBuf) (k j : Nat) (h : j < 16) :
    wordCode (packWord buf k) j = cell buf (16 * k + j) := by
  apply BitVec.eq_of_toNat_eq
  rw [packWord, wordCode_ofNat (packFrom_lt buf (16 * k) 16), packFrom_digit buf (16 * k) 16 j h]

@[simp] theorem storeWord_length (buf : TritBuf) (k : Nat) (w : Word) :
    (storeWord buf k w).length = buf.length := by
  simp [storeWord]

/-- R52: a window write of word `k` gives cell `i` the code `i - 16k` of the word if it is one of the
window word's cells and exists, and no other cell changes. -/
theorem cell_storeWord (buf : TritBuf) (k : Nat) (w : Word) (i : Nat) :
    cell (storeWord buf k w) i =
      if 16 * k ≤ i ∧ i < 16 * k + 16 ∧ i < buf.length then wordCode w (i - 16 * k) else cell buf i := by
  by_cases hb : i < buf.length
  · by_cases hk : i / 16 = k
    · have h1 : 16 * k ≤ i ∧ i < 16 * k + 16 ∧ i < buf.length := by omega
      have h2 : i % 16 = i - 16 * k := by omega
      simp [cell, storeWord, hb, hk, h1, h2]
    · have h1 : ¬ (16 * k ≤ i ∧ i < 16 * k + 16 ∧ i < buf.length) := by omega
      rw [if_neg h1]
      simp [cell, storeWord, hb, hk]
  · rw [if_neg (by omega), cell_of_length_le (by rw [storeWord_length]; omega), cell_of_length_le (by omega)]

/-- Storing the same word twice is storing it once (R56). -/
@[simp] theorem storeWord_storeWord (buf : TritBuf) (k : Nat) (w : Word) :
    storeWord (storeWord buf k w) k w = storeWord buf k w := by
  refine buf_ext (by simp) fun i => ?_
  rw [cell_storeWord, cell_storeWord, storeWord_length]
  split_ifs <;> rfl

/-! ## How a command ends -/

/-- R200: what `raise` does, whole. -/
theorem raise_eq (e : ErrCode) (off : Word) (opnd : Bool) (s : State) :
    raise e off opnd s = .next (s.report false (errNumber e) opnd off) := rfl

/-- R205: what `complete_vec` does, whole. -/
theorem completeVec_eq (ts : List Trit) (s : State) :
    completeVec ts s = .next ((s.putVec ts).report true 0 false 0) := rfl

/-- R205: what `complete_val` does, whole. -/
theorem completeVal_eq (v : Int) (s : State) :
    completeVal v s = .next ((s.putVal v).report true 0 false 0) := rfl

end Sys2Proof.Machine
end

