-- ==== Sys2Proof/Laws/Operands.lean ====
section
/-! SUPPORT. What the operand checks of Machine/Operands.lean do. -/

namespace Sys2Proof.Machine

/-! ## The first reserved code, and the sequence when there is none -/

theorem firstInvalid_eq_none {buf : TritBuf} {n : Nat} :
    firstInvalid buf n = none ↔ ∀ i, i < n → cell buf i ≠ 0b10#2 := by
  simp [firstInvalid, codeValid_eq_true]

theorem firstInvalid_eq_some {buf : TritBuf} {n i : Nat} :
    firstInvalid buf n = some i ↔ FirstReserved buf n i := by
  unfold firstInvalid FirstReserved
  rw [List.find?_range_eq_some]
  simp only [Bool.not_eq_true', codeValid_eq_false, List.mem_range, Bool.not_not, codeValid_eq_true]
  tauto

theorem Holds.firstInvalid {buf : TritBuf} {len : Word} {ts : List Trit} (h : Holds buf len ts) :
    firstInvalid buf len.toNat = none := by
  rw [firstInvalid_eq_none]
  intro i hi
  rw [h.cells i (h.length_eq ▸ hi)]
  exact tritCode_ne_reserved _

/-- An operand held in a buffer is the sequence read from it. -/
theorem Holds.tritSeq {buf : TritBuf} {len : Word} {ts : List Trit} (h : Holds buf len ts) :
    tritSeq buf len.toNat = ts := by
  have hf : ∀ i ∈ List.range len.toNat, codeTrit (cell buf i) = ts[i]? := by
    intro i hi
    have hi' : i < ts.length := by rw [← h.length_eq]; exact List.mem_range.1 hi
    rw [h.cells i hi', codeTrit_tritCode, List.getElem?_eq_getElem hi']
  unfold Machine.tritSeq
  rw [List.filterMap_congr hf, h.length_eq]
  clear hf h
  induction ts using List.reverseRecOn with
  | nil => rfl
  | append_singleton ts t ih =>
    rw [List.length_append, List.length_singleton, List.range_succ, List.filterMap_append]
    rw [List.filterMap_congr (g := fun i => ts[i]?)]
    · simp [ih]
    · intro i hi
      simp [List.getElem?_append, List.mem_range.1 hi]

/-- A buffer whose first `len` cells are all codes of trits holds a sequence. -/
theorem holds_of_firstInvalid {buf : TritBuf} {len : Word} (h : firstInvalid buf len.toNat = none) :
    ∃ ts, Holds buf len ts := by
  rw [firstInvalid_eq_none] at h
  refine ⟨(List.range len.toNat).map fun i => (codeTrit (cell buf i)).getD .zero, by simp, ?_⟩
  intro i hi
  have hi' : i < len.toNat := by simpa using hi
  have hv : codeValid (cell buf i) = true := codeValid_eq_true.2 (h i hi')
  obtain ⟨t, ht⟩ := Option.isSome_iff_exists.1 hv
  simp [codeTrit_eq_some.1 ht]

/-! ## The checks, by cases -/

theorem withTrits_of_reserved {buf : TritBuf} {n i : Nat} (h : FirstReserved buf n i) (opnd : Bool)
    (s : State) (k : List Trit → Result) :
    withTrits buf n opnd s k = .next (s.report false 1 opnd (BitVec.ofNat 32 i)) := by
  simp [withTrits, firstInvalid_eq_some.2 h, raise, errNumber]

theorem withTrits_of_holds {buf : TritBuf} {len : Word} {ts : List Trit} (h : Holds buf len ts)
    (opnd : Bool) (s : State) (k : List Trit → Result) : withTrits buf len.toNat opnd s k = k ts := by
  simp [withTrits, h.firstInvalid, h.tritSeq]

/-- A symbol check ends in the report of the first reserved code, or goes on with the sequence held. -/
theorem withTrits_cases (buf : TritBuf) (len : Word) (opnd : Bool) (s : State) (k : List Trit → Result) :
    (∃ i, FirstReserved buf len.toNat i ∧
      withTrits buf len.toNat opnd s k = .next (s.report false 1 opnd (BitVec.ofNat 32 i))) ∨
    (∃ ts, Holds buf len ts ∧ withTrits buf len.toNat opnd s k = k ts) := by
  cases hf : firstInvalid buf len.toNat with
  | some i =>
    have hr := firstInvalid_eq_some.1 hf
    exact .inl ⟨i, hr, withTrits_of_reserved hr opnd s k⟩
  | none =>
    obtain ⟨ts, hts⟩ := holds_of_firstInvalid hf
    exact .inr ⟨ts, hts, withTrits_of_holds hts opnd s k⟩

theorem withUnit_of_length {n : Nat} {s : State} (h : s.aLen.toNat ≠ n) (k : List Trit → Result) :
    withUnit n s k = .next (s.report false 3 false s.aLen) := by
  simp [withUnit, h, raise, errNumber]

theorem withUnit_of_reserved {n i : Nat} {s : State} (hn : s.aLen.toNat = n)
    (h : FirstReserved s.a n i) (k : List Trit → Result) :
    withUnit n s k = .next (s.report false 1 false (BitVec.ofNat 32 i)) := by
  simp [withUnit, hn, withTrits_of_reserved h]

theorem withUnit_of_holds {n : Nat} {s : State} {ts : List Trit} (h : HoldsA s ts) (hn : ts.length = n)
    (k : List Trit → Result) : withUnit n s k = k ts := by
  have hl : s.aLen.toNat = n := h.length_eq.trans hn
  rw [withUnit, if_neg (not_not.2 hl), ← hl, withTrits_of_holds h]

/-- The operand check of the fixed-length commands, by cases (R202 steps 2 and 3). -/
theorem withUnit_cases (n : Nat) (s : State) (k : List Trit → Result) :
    (s.aLen.toNat ≠ n ∧ withUnit n s k = .next (s.report false 3 false s.aLen)) ∨
    (s.aLen.toNat = n ∧ ∃ i, FirstReserved s.a n i ∧
      withUnit n s k = .next (s.report false 1 false (BitVec.ofNat 32 i))) ∨
    (∃ ts, ts.length = n ∧ HoldsA s ts ∧ withUnit n s k = k ts) := by
  by_cases hn : s.aLen.toNat = n
  · obtain ⟨i, hi, _⟩ | ⟨ts, hts, _⟩ := withTrits_cases s.a s.aLen false s k
    · exact .inr (.inl ⟨hn, i, hn ▸ hi, withUnit_of_reserved hn (hn ▸ hi) k⟩)
    · have hl : ts.length = n := hts.length_eq.symm.trans hn
      exact .inr (.inr ⟨ts, hl, hts, withUnit_of_holds hts hl k⟩)
  · exact .inl ⟨hn, withUnit_of_length hn k⟩

/-- The boundary check, by cases (R202 step 5). -/
theorem withBoundary_cases (e : ErrCode) (b : Trit) (last : Nat) (ts : List Trit) (s : State)
    (k : Unit → Result) :
    (ts[0]? ≠ some b ∧ withBoundary e b last ts s k = .next (s.report false (errNumber e) false 0)) ∨
    (ts[0]? = some b ∧ ts[last]? ≠ some b ∧
      withBoundary e b last ts s k = .next (s.report false (errNumber e) false (BitVec.ofNat 32 last))) ∨
    (ts[0]? = some b ∧ ts[last]? = some b ∧ withBoundary e b last ts s k = k ()) := by
  by_cases h0 : ts[0]? = some b
  · by_cases hl : ts[last]? = some b
    · simp [withBoundary, h0, hl]
    · simp [withBoundary, h0, hl, raise]
  · simp [withBoundary, h0, raise]

/-- The core-value check, by cases (R106, R133). -/
theorem withCoreValue_cases (s : State) (k : Int → Result) :
    ((s.valIn.toInt < 0 ∨ 80 < s.valIn.toInt) ∧ withCoreValue s k = .next (s.report false 2 false 0)) ∨
    (0 ≤ s.valIn.toInt ∧ s.valIn.toInt ≤ 80 ∧ withCoreValue s k = k s.valIn.toInt) := by
  by_cases h : s.valIn.toInt < 0 ∨ s.valIn.toInt > 80
  · exact .inl ⟨h, by simp only [withCoreValue, if_pos h, raise, errNumber]⟩
  · exact .inr ⟨by omega, by omega, by simp only [withCoreValue, if_neg h]⟩

theorem withCarrier_of_holds {s : State} {x p : List Trit} (ha : HoldsA s x) (hb : HoldsB s p)
    (hp : p ≠ []) (k : List Trit → List Trit → Result) : withCarrier s k = k x p := by
  have h0 : s.bLen.toNat ≠ 0 := by
    rw [hb.length_eq]; simpa using hp
  rw [withCarrier, if_neg h0, withTrits_of_holds ha, withTrits_of_holds hb]

/-- The operand checks of the carrier commands, by cases (R182, R202 steps 2 to 4). -/
theorem withCarrier_cases (s : State) (k : List Trit → List Trit → Result) :
    (s.bLen.toNat = 0 ∧ withCarrier s k = .next (s.report false 6 true 0)) ∨
    (s.bLen.toNat ≠ 0 ∧ ∃ i, FirstReserved s.a s.aLen.toNat i ∧
      withCarrier s k = .next (s.report false 1 false (BitVec.ofNat 32 i))) ∨
    (s.bLen.toNat ≠ 0 ∧ ∃ x, HoldsA s x ∧ ∃ j, FirstReserved s.b s.bLen.toNat j ∧
      withCarrier s k = .next (s.report false 1 true (BitVec.ofNat 32 j))) ∨
    (∃ x p, HoldsA s x ∧ HoldsB s p ∧ p ≠ [] ∧ withCarrier s k = k x p) := by
  by_cases h0 : s.bLen.toNat = 0
  · exact .inl ⟨h0, by simp [withCarrier, h0, raise, errNumber]⟩
  · obtain ⟨i, hi, he⟩ | ⟨x, hx, _⟩ :=
      withTrits_cases s.a s.aLen false s fun x => withTrits s.b s.bLen.toNat true s fun p => k x p
    · exact .inr (.inl ⟨h0, i, hi, by rw [withCarrier, if_neg h0, he]⟩)
    · obtain ⟨j, hj, he⟩ | ⟨p, hp, _⟩ := withTrits_cases s.b s.bLen true s fun p => k x p
      · exact .inr (.inr (.inl ⟨h0, x, hx, j, hj, by
          rw [withCarrier, if_neg h0, withTrits_of_holds hx, he]⟩))
      · have hne : p ≠ [] := by
          rintro rfl; exact h0 hp.length_eq
        exact .inr (.inr (.inr ⟨x, p, hx, hp, hne, withCarrier_of_holds hx hp hne k⟩))

end Sys2Proof.Machine
end

