-- ==== Sys2Proof/Laws/Commands.lean ====
section
/-! SUPPORT. What the commands do, by cases: the tribble check, and the one inversion lemma for all commands. -/

namespace Sys2Proof.Machine

theorem failed_eq (s : State) (c : BitVec 4) (o : Bool) (f : Word) : failed s c o f = s.report false c o f := rfl

theorem completed_eq (s : State) : completed s = s.report true 0 false 0 := rfl

theorem interior_mid (n : Nat) (x y : Trit) (ts : List Trit) (h : ts.length = n) :
    interior n ([x] ++ ts ++ [y]) = ts := by
  simp [interior, ← h]

/-- A sequence of length `n + 2` is a first trit, an interior and a last trit. -/
theorem split_ends {n : Nat} {ts : List Trit} (h : ts.length = n + 2) :
    ∃ x mid y, ts = [x] ++ mid ++ [y] ∧ mid.length = n := by
  match ts, h with
  | x :: rest, h =>
    have hne : rest ≠ [] := by rintro rfl; simp at h
    refine ⟨x, rest.dropLast, rest.getLast hne, ?_, ?_⟩
    · simp [List.dropLast_append_getLast]
    · simp at h ⊢; omega

theorem ends_zero (x y : Trit) (mid : List Trit) : ([x] ++ mid ++ [y])[0]? = some x := by simp

theorem ends_last (x y : Trit) (mid : List Trit) : ([x] ++ mid ++ [y])[mid.length + 1]? = some y := by simp

/-- The boundary check on a sequence given by its ends. -/
theorem withBoundary_ends (e : ErrCode) (b x y : Trit) (mid : List Trit) (s : State) (k : Unit → Result) :
    withBoundary e b (mid.length + 1) ([x] ++ mid ++ [y]) s k =
      if x ≠ b then .next (s.report false (errNumber e) false 0)
      else if y ≠ b then .next (s.report false (errNumber e) false (BitVec.ofNat 32 (mid.length + 1)))
      else k () := by
  simp only [withBoundary, ends_zero, ends_last, raise, ne_eq, Option.some.injEq]

/-- `UNPAD` and `DECODE_CORE` on a tribble-shaped operand. -/
theorem withTribble_of_holds {s : State} {x y : Trit} {core : List Trit} (hc : core.length = 4)
    (h : HoldsA s ([x] ++ core ++ [y])) (k : List Trit → Result) :
    withTribble s k =
      if x ≠ s.cfg.padTrit then .next (s.report false 4 false 0)
      else if y ≠ s.cfg.padTrit then .next (s.report false 4 false 5)
      else k core := by
  rw [withTribble, withUnit_of_holds h (by simp [hc])]
  have := withBoundary_ends .paddingMismatch s.cfg.padTrit x y core s
    fun _ => k (interior 4 ([x] ++ core ++ [y]))
  rw [hc, interior_mid 4 x y core hc] at this
  rw [interior_mid 4 x y core hc, this]
  rfl

/-- `UNFRAME` on an operand of eight trits. -/
theorem execUnframe_of_holds {s : State} {x y : Trit} {mid : List Trit} (hm : mid.length = 6)
    (h : HoldsA s ([x] ++ mid ++ [y])) :
    execUnframe s =
      if x ≠ s.cfg.frameTrit then .next (s.report false 5 false 0)
      else if y ≠ s.cfg.frameTrit then .next (s.report false 5 false 7)
      else completeVec mid s := by
  rw [execUnframe, withUnit_of_holds h (by simp [hm])]
  have := withBoundary_ends .syncLoss s.cfg.frameTrit x y mid s
    fun _ => completeVec (interior 6 ([x] ++ mid ++ [y])) s
  rw [hm, interior_mid 6 x y mid hm] at this
  rw [interior_mid 6 x y mid hm, this]
  rfl

/-- The tribble check of `UNPAD` and `DECODE_CORE`, by cases. -/
theorem withTribble_cases (s : State) (k : List Trit → Result) :
    (s.aLen.toNat ≠ 6 ∧ withTribble s k = .next (s.report false 3 false s.aLen)) ∨
    (s.aLen.toNat = 6 ∧ ∃ i, FirstReserved s.a 6 i ∧
      withTribble s k = .next (s.report false 1 false (BitVec.ofNat 32 i))) ∨
    (∃ x core y, core.length = 4 ∧ HoldsA s ([x] ++ core ++ [y]) ∧
      ((x ≠ s.cfg.padTrit ∧ withTribble s k = .next (s.report false 4 false 0)) ∨
       (x = s.cfg.padTrit ∧ y ≠ s.cfg.padTrit ∧ withTribble s k = .next (s.report false 4 false 5)) ∨
       (x = s.cfg.padTrit ∧ y = s.cfg.padTrit ∧ withTribble s k = k core))) := by
  obtain ⟨hn, _⟩ | ⟨hn, i, hi, _⟩ | ⟨ts, hl, hts, _⟩ := withUnit_cases 6 s k
  · exact .inl ⟨hn, withUnit_of_length hn _⟩
  · exact .inr (.inl ⟨hn, i, hi, withUnit_of_reserved hn hi _⟩)
  · obtain ⟨x, core, y, rfl, hc⟩ := split_ends (n := 4) hl
    refine .inr (.inr ⟨x, core, y, hc, hts, ?_⟩)
    rw [withTribble_of_holds hc hts]
    by_cases hx : x = s.cfg.padTrit <;> by_cases hy : y = s.cfg.padTrit <;> simp [hx, hy]

/-- `UNFRAME`, by cases. -/
theorem execUnframe_cases (s : State) :
    (s.aLen.toNat ≠ 8 ∧ execUnframe s = .next (s.report false 3 false s.aLen)) ∨
    (s.aLen.toNat = 8 ∧ ∃ i, FirstReserved s.a 8 i ∧
      execUnframe s = .next (s.report false 1 false (BitVec.ofNat 32 i))) ∨
    (∃ x mid y, mid.length = 6 ∧ HoldsA s ([x] ++ mid ++ [y]) ∧
      ((x ≠ s.cfg.frameTrit ∧ execUnframe s = .next (s.report false 5 false 0)) ∨
       (x = s.cfg.frameTrit ∧ y ≠ s.cfg.frameTrit ∧ execUnframe s = .next (s.report false 5 false 7)) ∨
       (x = s.cfg.frameTrit ∧ y = s.cfg.frameTrit ∧ execUnframe s = completeVec mid s))) := by
  obtain ⟨hn, _⟩ | ⟨hn, i, hi, _⟩ | ⟨ts, hl, hts, _⟩ := withUnit_cases 8 s fun _ => .next s
  · exact .inl ⟨hn, withUnit_of_length hn _⟩
  · exact .inr (.inl ⟨hn, i, hi, withUnit_of_reserved hn hi _⟩)
  · obtain ⟨x, mid, y, rfl, hm⟩ := split_ends (n := 6) hl
    refine .inr (.inr ⟨x, mid, y, hm, hts, ?_⟩)
    rw [execUnframe_of_holds hm hts]
    by_cases hx : x = s.cfg.frameTrit <;> by_cases hy : y = s.cfg.frameTrit <;> simp [hx, hy]

theorem balValue_core_bounds {ts : List Trit} (h : ts.length = 4) :
    0 ≤ balValue ts + 40 ∧ balValue ts + 40 ≤ 80 := by
  obtain ⟨d0, d1, d2, d3, rfl⟩ := four_trits h
  have h0 := tritInt_bounds d0
  have h1 := tritInt_bounds d1
  have h2 := tritInt_bounds d2
  have h3 := tritInt_bounds d3
  rw [balValue_four]; omega

/-- Everything a command can do: one error report with a code from 1 to 6, or a trit-sequence result no longer
than `A_LEN` or 8 (R35), or a core value in `[0, 80]`, each with the success report. -/
theorem exec_cases (i : Instr) (s : State) :
    (∃ c o f, 1 ≤ c.toNat ∧ c.toNat ≤ 6 ∧ exec i s = .next (s.report false c o f)) ∨
    (∃ ts, writesVec i = true ∧ (ts.length ≤ 8 ∨ ts.length = s.aLen.toNat) ∧ exec i s = completeVec ts s) ∨
    (∃ v, writesVec i = false ∧ 0 ≤ v ∧ v ≤ 80 ∧ exec i s = completeVal v s) := by
  have hfail : ∀ {i : Instr} {c : BitVec 4} {o : Bool} {f : Word}, (1 ≤ c.toNat ∧ c.toNat ≤ 6) →
      exec i s = .next (s.report false c o f) →
      (∃ c o f, 1 ≤ c.toNat ∧ c.toNat ≤ 6 ∧ exec i s = .next (s.report false c o f)) :=
    fun hc h => ⟨_, _, _, hc.1, hc.2, h⟩
  cases i with
  | enc4 =>
    obtain ⟨_, h⟩ | ⟨_, _, h⟩ := withCoreValue_cases s fun v => completeVec (balDigits (v - 40)) s
    · exact .inl (hfail (by decide) h)
    · exact .inr (.inl ⟨_, rfl, .inl (by simp), h⟩)
  | encodeCore =>
    obtain ⟨_, h⟩ | ⟨_, _, h⟩ :=
      withCoreValue_cases s fun v => completeVec (padTrits s.cfg (balDigits (v - 40))) s
    · exact .inl (hfail (by decide) h)
    · exact .inr (.inl ⟨_, rfl, .inl (by simp), h⟩)
  | dec4 =>
    obtain ⟨_, h⟩ | ⟨_, _, _, h⟩ | ⟨ts, hl, _, h⟩ := withUnit_cases 4 s fun ts => completeVal (balValue ts + 40) s
    · exact .inl (hfail (by decide) h)
    · exact .inl (hfail (by decide) h)
    · exact .inr (.inr ⟨_, rfl, (balValue_core_bounds hl).1, (balValue_core_bounds hl).2, h⟩)
  | pad =>
    obtain ⟨_, h⟩ | ⟨_, _, _, h⟩ | ⟨ts, hl, _, h⟩ := withUnit_cases 4 s fun ts => completeVec (padTrits s.cfg ts) s
    · exact .inl (hfail (by decide) h)
    · exact .inl (hfail (by decide) h)
    · exact .inr (.inl ⟨_, rfl, .inl (by simp [hl]), h⟩)
  | frame =>
    obtain ⟨_, h⟩ | ⟨_, _, _, h⟩ | ⟨ts, hl, _, h⟩ := withUnit_cases 6 s fun ts => completeVec (frameTrits s.cfg ts) s
    · exact .inl (hfail (by decide) h)
    · exact .inl (hfail (by decide) h)
    · exact .inr (.inl ⟨_, rfl, .inl (by simp [hl]), h⟩)
  | unpad =>
    obtain ⟨_, h⟩ | ⟨_, _, _, h⟩ | ⟨x, core, y, hl, _, ⟨_, h⟩ | ⟨_, _, h⟩ | ⟨_, _, h⟩⟩ :=
      withTribble_cases s fun core => completeVec core s
    · exact .inl (hfail (by decide) h)
    · exact .inl (hfail (by decide) h)
    · exact .inl (hfail (by decide) h)
    · exact .inl (hfail (by decide) h)
    · exact .inr (.inl ⟨_, rfl, .inl (by omega), h⟩)
  | decodeCore =>
    obtain ⟨_, h⟩ | ⟨_, _, _, h⟩ | ⟨x, core, y, hl, _, ⟨_, h⟩ | ⟨_, _, h⟩ | ⟨_, _, h⟩⟩ :=
      withTribble_cases s fun core => completeVal (balValue core + 40) s
    · exact .inl (hfail (by decide) h)
    · exact .inl (hfail (by decide) h)
    · exact .inl (hfail (by decide) h)
    · exact .inl (hfail (by decide) h)
    · exact .inr (.inr ⟨_, rfl, (balValue_core_bounds hl).1, (balValue_core_bounds hl).2, h⟩)
  | unframe =>
    obtain ⟨_, h⟩ | ⟨_, _, _, h⟩ | ⟨x, mid, y, hl, _, ⟨_, h⟩ | ⟨_, _, h⟩ | ⟨_, _, h⟩⟩ := execUnframe_cases s
    · exact .inl (hfail (by decide) h)
    · exact .inl (hfail (by decide) h)
    · exact .inl (hfail (by decide) h)
    · exact .inl (hfail (by decide) h)
    · exact .inr (.inl ⟨_, rfl, .inl (by omega), h⟩)
  | capply =>
    obtain ⟨_, h⟩ | ⟨_, _, _, h⟩ | ⟨_, _, _, _, _, h⟩ | ⟨x, p, hx, _, _, h⟩ :=
      withCarrier_cases s fun x p => completeVec (overlay x p) s
    · exact .inl (hfail (by decide) h)
    · exact .inl (hfail (by decide) h)
    · exact .inl (hfail (by decide) h)
    · exact .inr (.inl ⟨_, rfl, .inr (by simp [hx.length_eq]), h⟩)
  | cremove =>
    obtain ⟨_, h⟩ | ⟨_, _, _, h⟩ | ⟨_, _, _, _, _, h⟩ | ⟨x, p, hx, _, _, h⟩ :=
      withCarrier_cases s fun x p => completeVec (unoverlay x p) s
    · exact .inl (hfail (by decide) h)
    · exact .inl (hfail (by decide) h)
    · exact .inl (hfail (by decide) h)
    · exact .inr (.inl ⟨_, rfl, .inr (by simp [hx.length_eq]), h⟩)

end Sys2Proof.Machine
end

