-- ==== Sys2Proof/Laws/HostPort.lean ====
section
/-! SUPPORT. What a host event and a step do: the decoder's answer for every word, the register map for every
address, and the step by its next event. -/

namespace Sys2Proof

/-- A legal word's number is its opcode (R72 to R74). -/
theorem opField_toNat (w : Word) : (opField w).toNat = w.toNat % 16 := by
  simp [opField]

theorem rsvField_toNat (w : Word) : (rsvField w).toNat = w.toNat / 16 := by
  have h := w.isLt
  simp only [rsvField, BitVec.extractLsb'_toNat, Nat.shiftRight_eq_div_pow]
  omega

theorem rsvField_eq_zero (w : Word) : rsvField w = 0 ↔ w.toNat < 16 := by
  rw [← BitVec.toNat_inj, rsvField_toNat]
  simp only [BitVec.ofNat_eq_ofNat, BitVec.toNat_ofNat, Nat.zero_mod]
  omega

/-- The decoder on a word with `RSV = 0` is the opcode map. -/
theorem decode_of_lt {w : Word} (h : w.toNat < 16) :
    decode w = match opcodeInstr (opField w) with
      | some i => .ok i
      | none => .error .reservedOpcode := by
  unfold decode
  exact if_neg (not_not.2 ((rsvField_eq_zero w).2 h))

theorem decode_of_ge {w : Word} (h : 16 ≤ w.toNat) : decode w = .error .reservedBits := by
  unfold decode
  rw [if_pos]
  rw [ne_eq, rsvField_eq_zero]; omega

/-- The decoder never answers `.ok` on a word outside the table, and `.ok` on one inside it. -/
theorem decode_cases (w : Word) :
    (1 ≤ w.toNat ∧ w.toNat ≤ 10 ∧ ∃ i, decode w = .ok i) ∨
    ((w.toNat = 0 ∨ 11 ≤ w.toNat) ∧ ∃ e, decode w = .error e) := by
  by_cases h : w.toNat < 16
  · have key : ∀ n : Fin 16, decode (BitVec.ofNat 32 n.val) = decode (BitVec.ofNat 32 n.val) ∧
        ((1 ≤ n.val ∧ n.val ≤ 10 ∧ (opcodeInstr (BitVec.ofNat 4 n.val)).isSome = true) ∨
         ((n.val = 0 ∨ 11 ≤ n.val) ∧ opcodeInstr (BitVec.ofNat 4 n.val) = none)) := by
      intro n; exact ⟨rfl, by revert n; decide⟩
    have hop : opField w = BitVec.ofNat 4 w.toNat := by
      apply BitVec.eq_of_toNat_eq
      rw [opField_toNat, BitVec.toNat_ofNat]
    rw [decode_of_lt h, hop]
    obtain ⟨h1, h2, h3⟩ | ⟨h1, h2⟩ := (key ⟨w.toNat, h⟩).2
    · obtain ⟨i, hi⟩ := Option.isSome_iff_exists.1 h3
      exact .inl ⟨h1, h2, i, by simp only [] at hi; rw [hi]⟩
    · exact .inr ⟨h1, _, by simp only [] at h2; rw [h2]⟩
  · exact .inr ⟨.inr (by omega), _, decode_of_ge (by omega)⟩

namespace Machine

/-- The register map, by its number (R51): the eleven registers, then the windows. -/
theorem regAt_window {c : Cfg} {a : Word} (h : 11 ≤ a.toNat) : regAt c a = windowAt c a.toNat := by
  unfold regAt
  generalize a.toNat = n at h ⊢
  split <;> first | rfl | omega

/-- The register map has exactly the addresses of R51. -/
theorem regAt_isSome (c : Cfg) (a : Word) : (regAt c a).isSome = addrMapped c a.toNat := by
  by_cases h : a.toNat ≤ 10
  · have h' : addrMapped c a.toNat = true := by simp [addrMapped, h]
    rw [h']
    unfold regAt
    generalize a.toNat = n at h ⊢
    interval_cases n <;> rfl
  · rw [regAt_window (by omega)]
    unfold windowAt addrMapped
    have h' : decide (a.toNat ≤ 0xA) = false := by simpa using h
    rw [h']
    split_ifs with h1 h2 h3
    · simp [h1.1, h1.2]
    · simp [h2.1, h2.2]
    · simp [h3.1, h3.2]
    · simp only [Option.isSome_none, Bool.false_or, ← Bool.decide_and]
      simp [h1, h2, h3]

/-- Where a register of the map stands, as a number (R51). -/
def HomeOf (c : Cfg) (n : Nat) : Reg → Prop
  | .cmd => n = 0
  | .status => n = 1
  | .errOffset => n = 2
  | .valIn => n = 3
  | .rVal => n = 4
  | .aLen => n = 5
  | .bLen => n = 6
  | .rLen => n = 7
  | .cfg => n = 8
  | .capN => n = 9
  | .capP => n = 10
  | .aData k => n = 0x10000 + k ∧ k < windowWords c.nMax
  | .bData k => n = 0x20000 + k ∧ k < windowWords c.pMax
  | .rData k => n = 0x30000 + k ∧ k < windowWords c.nMax

/-- An address answers as a register only where that register stands. -/
theorem regAt_home {c : Cfg} {a : Word} {reg : Reg} (h : regAt c a = some reg) : HomeOf c a.toNat reg := by
  by_cases ha : a.toNat ≤ 10
  · unfold regAt at h
    generalize a.toNat = n at h ha ⊢
    interval_cases n <;> (cases h; rfl)
  · rw [regAt_window (by omega)] at h
    unfold windowAt at h
    split_ifs at h with h1 h2 h3 <;> (cases h; constructor <;> omega)

/-- The windows of an allowed configuration do not overlap: at most `2^16` words each (R6, R51). -/
theorem windowWords_le {c : Cfg} (h : c.wf = true) :
    windowWords c.nMax ≤ 0x10000 ∧ windowWords c.pMax ≤ 0x10000 := by
  simp only [Cfg.wf, Bool.and_eq_true, decide_eq_true_eq] at h
  unfold windowWords
  omega

/-- A register answers where it stands. -/
theorem regAt_of_home {c : Cfg} {a : Word} {reg : Reg} (hc : c.wf = true) (h : HomeOf c a.toNat reg) :
    regAt c a = some reg := by
  have hw := windowWords_le hc
  cases reg with
  | aData k =>
    obtain ⟨h1, h2⟩ := h
    rw [regAt_window (by omega), h1, windowAt, if_pos ⟨by omega, by omega⟩]
    simp
  | bData k =>
    obtain ⟨h1, h2⟩ := h
    rw [regAt_window (by omega), h1, windowAt, if_neg (by omega), if_pos ⟨by omega, by omega⟩]
    simp
  | rData k =>
    obtain ⟨h1, h2⟩ := h
    rw [regAt_window (by omega), h1, windowAt, if_neg (by omega), if_neg (by omega), if_pos ⟨by omega, by omega⟩]
    simp
  | _ =>
    unfold regAt
    simp only [HomeOf] at h
    rw [h]
    rfl

theorem step_nil {s : State} (h : s.pending = []) : step s = .next s := by
  simp [step, stepHost, h]

theorem step_cons {s : State} {e : HostEvent} {rest : List HostEvent} (h : s.pending = e :: rest) :
    step s = hostEvent e (s.putPending rest) := by
  simp [step, stepHost, h]

/-- Everything a host read can do. -/
theorem hostRead_cases (a : Word) (s : State) :
    (regAt s.cfg a = none ∧ hostRead a s = .refused (.unmappedAddress a)) ∨
    (∃ reg, regAt s.cfg a = some reg ∧ hostRead a s = .next (s.logRead (readReg s reg))) := by
  unfold hostRead
  cases h : regAt s.cfg a <;> simp

/-- Everything a write of `CMD` can do: it always answers a next state. -/
theorem issue_cases (w : Word) (s : State) :
    (∃ i, decode w = .ok i ∧ issue w s = exec i (s.putCmd w)) ∨
    (∃ e, decode w = .error e ∧ issue w s = .next ((s.putCmd w).report false 7 false 0)) := by
  unfold issue
  cases h : decode w with
  | ok i => exact .inl ⟨i, rfl, rfl⟩
  | error e => exact .inr ⟨e, rfl, rfl⟩

/-- Everything a host write can do. -/
theorem hostWrite_cases (a w : Word) (s : State) :
    (regAt s.cfg a = none ∧ hostWrite a w s = .refused (.unmappedAddress a)) ∨
    (regAt s.cfg a = some .cmd ∧ hostWrite a w s = issue w s) ∨
    (regAt s.cfg a = some .valIn ∧ hostWrite a w s = .next (s.putValIn w)) ∨
    (regAt s.cfg a = some .aLen ∧ s.cfg.nMax < w.toNat ∧
      hostWrite a w s = .refused (.lengthAboveCapacity a w)) ∨
    (regAt s.cfg a = some .aLen ∧ w.toNat ≤ s.cfg.nMax ∧ hostWrite a w s = .next (s.putALen w)) ∨
    (regAt s.cfg a = some .bLen ∧ s.cfg.pMax < w.toNat ∧
      hostWrite a w s = .refused (.lengthAboveCapacity a w)) ∨
    (regAt s.cfg a = some .bLen ∧ w.toNat ≤ s.cfg.pMax ∧ hostWrite a w s = .next (s.putBLen w)) ∨
    (∃ k, regAt s.cfg a = some (.aData k) ∧ hostWrite a w s = .next (s.putA (storeWord s.a k w))) ∨
    (∃ k, regAt s.cfg a = some (.bData k) ∧ hostWrite a w s = .next (s.putB (storeWord s.b k w))) ∨
    (∃ reg, regAt s.cfg a = some reg ∧ hostWrite a w s = .next s) := by
  unfold hostWrite
  cases h : regAt s.cfg a with
  | none => exact .inl ⟨rfl, rfl⟩
  | some reg =>
    cases reg with
    | aLen => by_cases hw : w.toNat > s.cfg.nMax <;> (simp [writeReg, hw]; try omega)
    | bLen => by_cases hw : w.toNat > s.cfg.pMax <;> (simp [writeReg, hw]; try omega)
    | _ => simp [writeReg]

/-- Everything a step can do: idle, a reset, a read or a write. -/
theorem step_cases (s : State) :
    (s.pending = [] ∧ step s = .next s) ∨
    (∃ rest, s.pending = .reset :: rest ∧ step s = .next (hostReset (s.putPending rest))) ∨
    (∃ a rest, s.pending = .read a :: rest ∧ step s = hostRead a (s.putPending rest)) ∨
    (∃ a w rest, s.pending = .write a w :: rest ∧ step s = hostWrite a w (s.putPending rest)) := by
  cases h : s.pending with
  | nil => exact .inl ⟨rfl, step_nil h⟩
  | cons e rest =>
    have hs := step_cons h
    cases e with
    | reset => exact .inr (.inl ⟨rest, rfl, hs⟩)
    | read a => exact .inr (.inr (.inl ⟨a, rest, rfl, hs⟩))
    | write a w => exact .inr (.inr (.inr ⟨a, w, rest, rfl, hs⟩))

/-- A run of no steps. -/
theorem run_zero (s : State) : Host.Core.run core 0 s = .next s := rfl

/-- The run of any machine by its first step. -/
theorem core_run_succ (M : Host.Core) (k : Nat) (s : M.State) :
    M.run (k + 1) s = match M.step s with
      | .next t => M.run k t
      | .fault f => .fault f
      | .refused r => .refused r := rfl

/-- A run whose first step answers a next state. -/
theorem run_succ_next {k : Nat} {s t : State} (h : step s = .next t) :
    Host.Core.run core (k + 1) s = Host.Core.run core k t := by
  have h' : core.step s = .next t := h
  have h2 := core_run_succ core k s
  rw [h'] at h2
  exact h2

/-- A run whose first step is refused. -/
theorem run_succ_refused {k : Nat} {s : State} {r : Refusal} (h : step s = .refused r) :
    Host.Core.run core (k + 1) s = .refused r := by
  have h' : core.step s = .refused r := h
  have h2 := core_run_succ core k s
  rw [h'] at h2
  exact h2

end Machine
end Sys2Proof
end

