-- ==== Sys2Proof/Laws/Invariant.lean ====
section
/-! SUPPORT. The invariant under each named update of the state: what Machine/Ops.lean and a host write do to it. -/

namespace Sys2Proof

theorem Cfg.wf_iff {c : Cfg} :
    c.wf = true ↔ 8 ≤ c.nMax ∧ c.nMax ≤ 1048576 ∧ 1 ≤ c.pMax ∧ c.pMax ≤ 1048576 := by
  simp [Cfg.wf, and_assoc]

/-- The configuration of `State.reset` is one R6 allows, whatever its opaque capacities are. -/
theorem Config.cfg_wf : Config.cfg.wf = true := by
  have h1 := Config.nMaxOver.isLt
  have h2 := Config.pMaxOver.isLt
  rw [Cfg.wf_iff]
  simp only [Config.cfg]
  omega

namespace Machine

variable {s : State}

theorem Inv.report (h : Inv s) {v : Bool} {c : BitVec 4} {o : Bool} {f : Word}
    (hv : v = true → c = 0 ∧ o = false ∧ f = 0) (hc : c.toNat ≤ 7) : Inv (s.report v c o f) :=
  ⟨h.cfg_wf, h.aLen_le, h.bLen_le, h.rLen_le, h.a_length, h.b_length, h.r_length, hv, hc, h.rVal_le, h.r_valid⟩

/-- A result no longer than the capacity keeps the invariant (R35). -/
theorem Inv.putVec (h : Inv s) {ts : List Trit} (hl : ts.length ≤ s.cfg.nMax) : Inv (s.putVec ts) := by
  have hw := Cfg.wf_iff.1 h.cfg_wf
  refine ⟨h.cfg_wf, h.aLen_le, h.bLen_le, ?_, h.a_length, h.b_length, ?_, h.valid_clear, h.code_le, h.rVal_le,
    writeTrits_valid h.r_valid⟩
  · rw [State.putVec_rLen, State.putVec_cfg, BitVec.toNat_ofNat]; omega
  · rw [State.putVec_r, writeTrits_length, State.putVec_cfg, h.r_length]

theorem Inv.putVal (h : Inv s) {v : Int} (hv : v ≤ 80) : Inv (s.putVal v) := by
  refine ⟨h.cfg_wf, h.aLen_le, h.bLen_le, h.rLen_le, h.a_length, h.b_length, h.r_length, h.valid_clear,
    h.code_le, ?_, h.r_valid⟩
  rw [State.putVal_rVal, BitVec.toNat_ofNat]; omega

theorem Inv.putCmd (h : Inv s) (w : Word) : Inv (s.putCmd w) :=
  ⟨h.cfg_wf, h.aLen_le, h.bLen_le, h.rLen_le, h.a_length, h.b_length, h.r_length, h.valid_clear, h.code_le,
    h.rVal_le, h.r_valid⟩

theorem Inv.putPending (h : Inv s) (es : List HostEvent) : Inv (s.putPending es) :=
  ⟨h.cfg_wf, h.aLen_le, h.bLen_le, h.rLen_le, h.a_length, h.b_length, h.r_length, h.valid_clear, h.code_le,
    h.rVal_le, h.r_valid⟩

theorem Inv.logRead (h : Inv s) (w : Word) : Inv (s.logRead w) :=
  ⟨h.cfg_wf, h.aLen_le, h.bLen_le, h.rLen_le, h.a_length, h.b_length, h.r_length, h.valid_clear, h.code_le,
    h.rVal_le, h.r_valid⟩

theorem Inv.putValIn (h : Inv s) (w : Word) : Inv (s.putValIn w) :=
  ⟨h.cfg_wf, h.aLen_le, h.bLen_le, h.rLen_le, h.a_length, h.b_length, h.r_length, h.valid_clear, h.code_le,
    h.rVal_le, h.r_valid⟩

theorem Inv.putALen (h : Inv s) {w : Word} (hw : w.toNat ≤ s.cfg.nMax) : Inv (s.putALen w) :=
  ⟨h.cfg_wf, hw, h.bLen_le, h.rLen_le, h.a_length, h.b_length, h.r_length, h.valid_clear, h.code_le,
    h.rVal_le, h.r_valid⟩

theorem Inv.putBLen (h : Inv s) {w : Word} (hw : w.toNat ≤ s.cfg.pMax) : Inv (s.putBLen w) :=
  ⟨h.cfg_wf, h.aLen_le, hw, h.rLen_le, h.a_length, h.b_length, h.r_length, h.valid_clear, h.code_le,
    h.rVal_le, h.r_valid⟩

/-- A window write keeps the buffer's length, the canonical form of a buffer. -/
theorem Inv.putA (h : Inv s) {buf : TritBuf} (hl : buf.length = s.a.length) : Inv (s.putA buf) :=
  ⟨h.cfg_wf, h.aLen_le, h.bLen_le, h.rLen_le, hl.trans h.a_length, h.b_length, h.r_length, h.valid_clear,
    h.code_le, h.rVal_le, h.r_valid⟩

theorem Inv.putB (h : Inv s) {buf : TritBuf} (hl : buf.length = s.b.length) : Inv (s.putB buf) :=
  ⟨h.cfg_wf, h.aLen_le, h.bLen_le, h.rLen_le, h.a_length, hl.trans h.b_length, h.r_length, h.valid_clear,
    h.code_le, h.rVal_le, h.r_valid⟩

end Machine
end Sys2Proof
end

