-- ==== Sys2Proof/Laws/HostProgram.lean ====
section
/-! SUPPORT. What the expansions of Machine/HostProgram.lean do: runs of events, and the load of a buffer. -/

namespace Sys2Proof.Machine

/-- Events after events that all answered. -/
theorem runEvents_append {es : List HostEvent} {s t : State} (fs : List HostEvent)
    (h : runEvents es s = .next t) : runEvents (es ++ fs) s = runEvents fs t := by
  induction es generalizing s with
  | nil => obtain rfl := Host.Outcome.next.inj h; rfl
  | cons e es ih =>
    rw [runEvents] at h
    rw [List.cons_append, runEvents]
    cases he : hostEvent e s with
    | next u => rw [he] at h; exact ih h
    | fault f => exact nomatch f
    | refused r => rw [he] at h; exact nomatch h

/-- The register of every name of R51 answers at that name's address. -/
theorem regAt_regAddr {c : Cfg} (hc : c.wf = true) {reg : Reg} (h : regNamed c reg = true) :
    regAt c (regAddr reg) = some reg := by
  have hw := windowWords_le hc
  cases reg with
  | aData k | bData k | rData k =>
    have hk := of_decide_eq_true h
    refine regAt_of_home hc ⟨?_, hk⟩
    simp only [regAddr, BitVec.toNat_ofNat]; omega
  | _ => rfl

theorem regAt_aData {c : Cfg} (hc : c.wf = true) {k : Nat} (hk : k < windowWords c.nMax) :
    regAt c (regAddr (.aData k)) = some (.aData k) := regAt_regAddr hc (decide_eq_true hk)

theorem regAt_bData {c : Cfg} (hc : c.wf = true) {k : Nat} (hk : k < windowWords c.pMax) :
    regAt c (regAddr (.bData k)) = some (.bData k) := regAt_regAddr hc (decide_eq_true hk)

theorem regAt_rData {c : Cfg} (hc : c.wf = true) {k : Nat} (hk : k < windowWords c.nMax) :
    regAt c (regAddr (.rData k)) = some (.rData k) := regAt_regAddr hc (decide_eq_true hk)

/-- The words that hold a slice are those that hold one of its cells. -/
theorem mem_wordsHolding {j n k : Nat} : k ∈ wordsHolding j n ↔ ∃ i, i < n ∧ (j + i) / 16 = k := by
  simp only [wordsHolding, List.mem_filter, List.mem_range, Bool.and_eq_true, decide_eq_true_eq, windowWords]
  constructor
  · rintro ⟨h1, h2, h3⟩
    by_cases h : j ≤ 16 * k
    · exact ⟨16 * k - j, by omega, by omega⟩
    · exact ⟨0, h2, by omega⟩
  · rintro ⟨i, h1, h2⟩
    omega

/-- The cells after `n` window words have been stored, and one more is. -/
theorem cell_storeWord_succ {buf dst : TritBuf} {src : Nat → Word} {n : Nat} (hl : buf.length = dst.length)
    (h : ∀ i, cell buf i = if i < 16 * n ∧ i < dst.length then wordCode (src (i / 16)) (i % 16) else cell dst i)
    (i : Nat) : cell (storeWord buf n (src n)) i =
      if i < 16 * (n + 1) ∧ i < dst.length then wordCode (src (i / 16)) (i % 16) else cell dst i := by
  rw [cell_storeWord, h, hl]
  by_cases hh : 16 * n ≤ i ∧ i < 16 * n + 16
  · have e1 : i / 16 = n := by omega
    have e2 : i % 16 = i - 16 * n := by omega
    by_cases hl : i < dst.length
    · rw [if_pos ⟨hh.1, hh.2, hl⟩, if_pos ⟨by omega, hl⟩, e1, e2]
    · rw [if_neg (by omega), if_neg (by omega), if_neg (by omega)]
  · rw [if_neg (by omega)]
    by_cases hl : i < 16 * n ∧ i < dst.length
    · rw [if_pos hl, if_pos ⟨by omega, hl.2⟩]
    · rw [if_neg hl, if_neg (by omega)]

/-- The first `n` words of the `A` window, written in order. -/
theorem runEvents_storeA {s : State} (hc : s.cfg.wf = true) (src : Nat → Word) {n : Nat}
    (hn : n ≤ windowWords s.cfg.nMax) : ∃ buf : TritBuf, buf.length = s.a.length ∧
      (∀ i, cell buf i = if i < 16 * n ∧ i < s.a.length then wordCode (src (i / 16)) (i % 16) else cell s.a i) ∧
      runEvents ((List.range n).map fun k => .write (regAddr (.aData k)) (src k)) s = .next (s.putA buf) := by
  induction n with
  | zero => exact ⟨s.a, rfl, by simp, rfl⟩
  | succ n ih =>
    obtain ⟨buf, h1, h2, h3⟩ := ih (by omega)
    refine ⟨storeWord buf n (src n), by rw [storeWord_length, h1], cell_storeWord_succ h1 h2, ?_⟩
    have hr := regAt_aData hc (show n < _ by omega)
    rw [List.range_succ, List.map_append, runEvents_append _ h3]
    simp only [List.map_cons, List.map_nil, runEvents, hostEvent, hostWrite, State.putA_cfg, hr]
    rfl

/-- The first `n` words of the `B` window, written in order. -/
theorem runEvents_storeB {s : State} (hc : s.cfg.wf = true) (src : Nat → Word) {n : Nat}
    (hn : n ≤ windowWords s.cfg.pMax) : ∃ buf : TritBuf, buf.length = s.b.length ∧
      (∀ i, cell buf i = if i < 16 * n ∧ i < s.b.length then wordCode (src (i / 16)) (i % 16) else cell s.b i) ∧
      runEvents ((List.range n).map fun k => .write (regAddr (.bData k)) (src k)) s = .next (s.putB buf) := by
  induction n with
  | zero => exact ⟨s.b, rfl, by simp, rfl⟩
  | succ n ih =>
    obtain ⟨buf, h1, h2, h3⟩ := ih (by omega)
    refine ⟨storeWord buf n (src n), by rw [storeWord_length, h1], cell_storeWord_succ h1 h2, ?_⟩
    have hr := regAt_bData hc (show n < _ by omega)
    rw [List.range_succ, List.map_append, runEvents_append _ h3]
    simp only [List.map_cons, List.map_nil, runEvents, hostEvent, hostWrite, State.putB_cfg, hr]
    rfl

/-- `wr A_LEN, n` and the words of `src` into the `A` window: everything it does. -/
theorem runEvents_loadA {s : State} (hI : Inv s) (src : TritBuf) {n : Nat} (hn : n ≤ s.cfg.nMax) :
    ∃ buf : TritBuf, Inv ((s.putALen (BitVec.ofNat 32 n)).putA buf) ∧ (BitVec.ofNat 32 n).toNat = n ∧
      (∀ i, cell buf i = if i < 16 * windowWords n ∧ i < s.cfg.nMax then cell src i else cell s.a i) ∧
      runEvents (loadEvents .aLen .aData n src) s = .next ((s.putALen (BitVec.ofNat 32 n)).putA buf) := by
  have hw := Cfg.wf_iff.1 hI.cfg_wf
  have hn2 : (BitVec.ofNat 32 n).toNat = n := by rw [BitVec.toNat_ofNat]; omega
  have hI2 : Inv (s.putALen (BitVec.ofNat 32 n)) := hI.putALen (by rw [hn2]; exact hn)
  obtain ⟨buf, h1, h2, h3⟩ := runEvents_storeA hI2.cfg_wf (packWord src) (n := windowWords n)
    (by simp only [windowWords, State.putALen_cfg]; omega)
  refine ⟨buf, hI2.putA h1, hn2, fun i => ?_, ?_⟩
  · have hi : 16 * (i / 16) + i % 16 = i := by omega
    rw [h2 i, wordCode_packWord _ _ _ (by omega), hi]
    simp only [State.putALen_a, hI.a_length]
  · have e : regAt s.cfg (regAddr .aLen) = some .aLen := rfl
    simp only [loadEvents, runEvents, hostEvent, hostWrite, e, writeReg, hn2]
    rw [if_neg (by omega)]
    exact h3

/-- `wr B_LEN, n` and the words of `src` into the `B` window: everything it does. -/
theorem runEvents_loadB {s : State} (hI : Inv s) (src : TritBuf) {n : Nat} (hn : n ≤ s.cfg.pMax) :
    ∃ buf : TritBuf, Inv ((s.putBLen (BitVec.ofNat 32 n)).putB buf) ∧ (BitVec.ofNat 32 n).toNat = n ∧
      (∀ i, cell buf i = if i < 16 * windowWords n ∧ i < s.cfg.pMax then cell src i else cell s.b i) ∧
      runEvents (loadEvents .bLen .bData n src) s = .next ((s.putBLen (BitVec.ofNat 32 n)).putB buf) := by
  have hw := Cfg.wf_iff.1 hI.cfg_wf
  have hn2 : (BitVec.ofNat 32 n).toNat = n := by rw [BitVec.toNat_ofNat]; omega
  have hI2 : Inv (s.putBLen (BitVec.ofNat 32 n)) := hI.putBLen (by rw [hn2]; exact hn)
  obtain ⟨buf, h1, h2, h3⟩ := runEvents_storeB hI2.cfg_wf (packWord src) (n := windowWords n)
    (by simp only [windowWords, State.putBLen_cfg]; omega)
  refine ⟨buf, hI2.putB h1, hn2, fun i => ?_, ?_⟩
  · have hi : 16 * (i / 16) + i % 16 = i := by omega
    rw [h2 i, wordCode_packWord _ _ _ (by omega), hi]
    simp only [State.putBLen_b, hI.b_length]
  · have e : regAt s.cfg (regAddr .bLen) = some .bLen := rfl
    simp only [loadEvents, runEvents, hostEvent, hostWrite, e, writeReg, hn2]
    rw [if_neg (by omega)]
    exact h3

end Sys2Proof.Machine
end

