-- ==== Sys2Proof/Laws/PerInstr.lean ====
section
/-! SUPPORT. Per-command facts about the encoding: one lemma per constructor of `Instr`. -/

namespace Sys2Proof.Laws.CommandWord

/-- The command's word has `RSV = 0` and its opcode maps back to it (30_encoding.md R72, R73). -/
def Statement (i : Instr) : Prop :=
  i.wf = true ∧ cmdWordWf (encode i) = true ∧ rsvField (encode i) = 0 ∧
    opcodeInstr (opField (encode i)) = some i

theorem enc4 : Statement .enc4 := by unfold Statement; decide
theorem dec4 : Statement .dec4 := by unfold Statement; decide
theorem pad : Statement .pad := by unfold Statement; decide
theorem unpad : Statement .unpad := by unfold Statement; decide
theorem encodeCore : Statement .encodeCore := by unfold Statement; decide
theorem decodeCore : Statement .decodeCore := by unfold Statement; decide
theorem frame : Statement .frame := by unfold Statement; decide
theorem unframe : Statement .unframe := by unfold Statement; decide
theorem capply : Statement .capply := by unfold Statement; decide
theorem cremove : Statement .cremove := by unfold Statement; decide

end Sys2Proof.Laws.CommandWord
end

