-- ==== Sys2Proof/Laws/Results.lean ====
section
/-! SUPPORT. Results and operands: what a command does with an operand it accepts, and what the buffer `A` holds
once the host has moved a result into it (`ReloadsA`). -/

namespace Sys2Proof.Machine

/-- The capacity is at least 8 (R6), so every result but a carrier command's always fits. -/
theorem Inv.nMax_ge {s : State} (h : Inv s) : 8 ≤ s.cfg.nMax := (Cfg.wf_iff.1 h.cfg_wf).1

/-- A stream held in `A` fits the capacity of `R` (R35). -/
theorem Inv.length_le {s : State} (h : Inv s) {x : List Trit} (hx : HoldsA s x) : x.length ≤ s.cfg.nMax := by
  have h1 := h.aLen_le
  rw [hx.length_eq] at h1
  exact h1

/-- A completed trit-sequence result stands in `R` and `R_LEN` (R24). -/
theorem holds_of_completeVec {ts : List Trit} {s t : State} (hI : Inv s) (hl : ts.length ≤ s.cfg.nMax)
    (h : completeVec ts s = .next t) : Holds t.r t.rLen ts := by
  have hw := Cfg.wf_iff.1 hI.cfg_wf
  obtain rfl := Host.Outcome.next.inj h
  refine ⟨?_, fun i hi => cell_writeTrits_lt hi (by rw [hI.r_length]; omega)⟩
  rw [State.report_rLen, State.putVec_rLen, BitVec.toNat_ofNat]
  omega

/-- A result moved into `A` is the operand of the next command. -/
theorem ReloadsA.holdsA {ts : List Trit} {s t s2 : State} (h2 : ReloadsA t s2) (hI : Inv s)
    (hl : ts.length ≤ s.cfg.nMax) (h : completeVec ts s = .next t) : HoldsA s2 ts ∧ s2.cfg = s.cfg := by
  have hh := holds_of_completeVec hI hl h
  refine ⟨⟨by rw [h2.len_eq]; exact hh.length_eq, fun i hi => ?_⟩, ?_⟩
  · rw [h2.cells i (by rw [hh.length_eq]; exact hi)]
    exact hh.cells i hi
  · obtain rfl := Host.Outcome.next.inj h
    exact h2.cfg_eq

/-! ## Each command on an operand it accepts -/

theorem exec_enc4_of_range {s : State} (h0 : 0 ≤ s.valIn.toInt) (h1 : s.valIn.toInt ≤ 80) :
    exec .enc4 s = completeVec (balDigits (s.valIn.toInt - 40)) s := by
  obtain ⟨h, _⟩ | ⟨_, _, h⟩ := withCoreValue_cases s fun v => completeVec (balDigits (v - 40)) s
  · omega
  · exact h

theorem exec_encodeCore_of_range {s : State} (h0 : 0 ≤ s.valIn.toInt) (h1 : s.valIn.toInt ≤ 80) :
    exec .encodeCore s = completeVec (padTrits s.cfg (balDigits (s.valIn.toInt - 40))) s := by
  obtain ⟨h, _⟩ | ⟨_, _, h⟩ :=
    withCoreValue_cases s fun v => completeVec (padTrits s.cfg (balDigits (v - 40))) s
  · omega
  · exact h

variable {s : State} {x y : Trit} {ts p : List Trit}

theorem exec_dec4_of_holds (h : HoldsA s ts) (hl : ts.length = 4) :
    exec .dec4 s = completeVal (balValue ts + 40) s := withUnit_of_holds h hl _

theorem exec_pad_of_holds (h : HoldsA s ts) (hl : ts.length = 4) :
    exec .pad s = completeVec (padTrits s.cfg ts) s := withUnit_of_holds h hl _

theorem exec_frame_of_holds (h : HoldsA s ts) (hl : ts.length = 6) :
    exec .frame s = completeVec (frameTrits s.cfg ts) s := withUnit_of_holds h hl _

theorem exec_unpad_of_holds (h : HoldsA s ([x] ++ ts ++ [y])) (hl : ts.length = 4) :
    exec .unpad s =
      if x ≠ s.cfg.padTrit then .next (s.report false 4 false 0)
      else if y ≠ s.cfg.padTrit then .next (s.report false 4 false 5)
      else completeVec ts s := withTribble_of_holds hl h fun c => completeVec c s

theorem exec_decodeCore_of_holds (h : HoldsA s ([x] ++ ts ++ [y])) (hl : ts.length = 4) :
    exec .decodeCore s =
      if x ≠ s.cfg.padTrit then .next (s.report false 4 false 0)
      else if y ≠ s.cfg.padTrit then .next (s.report false 4 false 5)
      else completeVal (balValue ts + 40) s := withTribble_of_holds hl h fun c => completeVal (balValue c + 40) s

theorem exec_capply_of_holds (ha : HoldsA s ts) (hb : HoldsB s p) (hp : p ≠ []) :
    exec .capply s = completeVec (overlay ts p) s := withCarrier_of_holds ha hb hp _

theorem exec_cremove_of_holds (ha : HoldsA s ts) (hb : HoldsB s p) (hp : p ≠ []) :
    exec .cremove s = completeVec (unoverlay ts p) s := withCarrier_of_holds ha hb hp _

end Sys2Proof.Machine
end

