-- ==== Sys2Proof/Tests/Slice0.lean ====
section
/-! SUPPORT. Tests: the ill-formed terms that the checks refuse, the encodings of the spec, one or two vectors of
95_test_vectors.md per command and host access, and for every statement with hypotheses a state that meets them.
Every expected value is the spec's own (the section of 95_test_vectors.md is named). -/

namespace Sys2Proof.Tests

open Sys2Proof.Machine

/-! ## Small states -/

/-- The configuration of the vectors of 95_test_vectors.md section 2. -/
def cfg0 : Cfg := ⟨.zero, .plus, 16, 8⟩

/-- From reset. -/
def st : State := State.resetOf cfg0

/-- The symbols of R13, and `q` for the reserved code. -/
abbrev m : Code := 0b11#2
abbrev z : Code := 0b00#2
abbrev p : Code := 0b01#2
abbrev q : Code := 0b10#2

/-- The first cells of a buffer, the rest `0b00`. -/
def filled (cap : Nat) (cs : List Code) : TritBuf := cs ++ List.replicate (cap - cs.length) 0

/-- `A` and `A_LEN` loaded. -/
def inA (cs : List Code) (s : State := st) : State :=
  (s.putA (filled s.cfg.nMax cs)).putALen (BitVec.ofNat 32 cs.length)

/-- `B` and `B_LEN` loaded. -/
def inB (cs : List Code) (s : State := st) : State :=
  (s.putB (filled s.cfg.pMax cs)).putBLen (BitVec.ofNat 32 cs.length)

/-- `VAL_IN` loaded. -/
def inVal (w : Word) (s : State := st) : State := s.putValIn w

/-- The next state, observed. -/
def after {α : Type} (r : Result) (f : State → α) : Option α :=
  match r with
  | .next t => some (f t)
  | .fault _ => none
  | .refused _ => none

/-- `STATUS`, `ERR_OFFSET`, `R_LEN`, `R_DATA[0]`. -/
def vec (r : Result) : Option (Word × Word × Word × Word) :=
  after r fun t => (statusWord t, t.errOffset, t.rLen, packWord t.r 0)

/-- `STATUS`, `ERR_OFFSET`, `R_VAL`. -/
def val (r : Result) : Option (Word × Word × Word) := after r fun t => (statusWord t, t.errOffset, t.rVal)

/-- The refusal of a step, if it is one. -/
def refusal (r : Result) : Option Refusal :=
  match r with
  | .next _ => none
  | .fault _ => none
  | .refused e => some e

/-- One host event performed by one step. -/
def one (e : HostEvent) (s : State := st) : Result := step (s.putPending [e])

/-! ## Well-formedness: what the checks refuse -/

theorem test_cfg_wf_refuses_small_nMax : Cfg.wf ⟨.zero, .plus, 7, 8⟩ = false := by decide
theorem test_cfg_wf_refuses_large_nMax : Cfg.wf ⟨.zero, .plus, 1048577, 8⟩ = false := by decide
theorem test_cfg_wf_refuses_zero_pMax : Cfg.wf ⟨.zero, .plus, 16, 0⟩ = false := by decide
theorem test_cfg_wf_refuses_large_pMax : Cfg.wf ⟨.zero, .plus, 16, 1048577⟩ = false := by decide
theorem test_cfg_wf_bounds : Cfg.wf ⟨.plus, .plus, 8, 1⟩ = true ∧ Cfg.wf ⟨.zero, .plus, 1048576, 1048576⟩ = true := by
  decide
theorem test_cmdWordWf_refuses : cmdWordWf 0x0 = false ∧ cmdWordWf 0xB = false ∧ cmdWordWf 0xF = false ∧
    cmdWordWf 0x11 = false ∧ cmdWordWf 0x80000001 = false := by decide
theorem test_cmdWordWf_encode : ∀ i : Instr, cmdWordWf (encode i) = true ∧ i.wf = true := by
  intro i; cases i <;> decide
theorem test_hostEventWf_refuses_unmapped : hostEventWf cfg0 (.read 0xB) = false ∧
    hostEventWf cfg0 (.read 0x10001) = false ∧ hostEventWf cfg0 (.write 0x20001 0) = false ∧
    hostEventWf cfg0 (.write 0x30001 0) = false := by decide
theorem test_hostEventWf_refuses_lengths : hostEventWf cfg0 (.write 5 17) = false ∧
    hostEventWf cfg0 (.write 6 9) = false ∧ hostEventWf cfg0 (.write 5 16) = true ∧
    hostEventWf cfg0 (.write 6 8) = true := by decide

/-! ## Encodings, written out from R70, R72 and R73 -/

theorem test_decode_enc4 : decode 0b00000000000000000000000000000001#32 = .ok .enc4 := by decide
theorem test_decode_dec4 : decode 0b00000000000000000000000000000010#32 = .ok .dec4 := by decide
theorem test_decode_pad : decode 0b00000000000000000000000000000011#32 = .ok .pad := by decide
theorem test_decode_unpad : decode 0b00000000000000000000000000000100#32 = .ok .unpad := by decide
theorem test_decode_encodeCore : decode 0b00000000000000000000000000000101#32 = .ok .encodeCore := by decide
theorem test_decode_decodeCore : decode 0b00000000000000000000000000000110#32 = .ok .decodeCore := by decide
theorem test_decode_frame : decode 0b00000000000000000000000000000111#32 = .ok .frame := by decide
theorem test_decode_unframe : decode 0b00000000000000000000000000001000#32 = .ok .unframe := by decide
theorem test_decode_capply : decode 0b00000000000000000000000000001001#32 = .ok .capply := by decide
theorem test_decode_cremove : decode 0b00000000000000000000000000001010#32 = .ok .cremove := by decide
/-- Section 2.8. -/
theorem test_decode_reserved : decode 0x0 = .error .reservedOpcode ∧ decode 0xB = .error .reservedOpcode ∧
    decode 0xF = .error .reservedOpcode ∧ decode 0x10 = .error .reservedBits ∧
    decode 0x11 = .error .reservedBits ∧ decode 0xFFFFFFFF = .error .reservedBits := by decide
theorem test_decodeTableWord : decodeTableWord 32 7 = some .frame ∧ decodeTableWord 32 0xB = none := by decide
/-- The words of R73 are what the encoder writes. -/
theorem test_encode_decode : ∀ i : Instr, decode (encode i) = .ok i := by intro i; cases i <;> decide
/-- Section 1, L1-8. -/
theorem test_trit_codes : codeTrit 0b11#2 = some .minus ∧ codeTrit 0b00#2 = some .zero ∧
    codeTrit 0b01#2 = some .plus ∧ codeTrit 0b10#2 = none := by decide
/-- Section 2.1. -/
theorem test_packing : packWord (filled 16 [p, z, m, m, m, m, z, p]) 0 = 0x00004FF1 ∧
    packWord (filled 16 [p, z, p, q, z, z, z, p]) 0 = 0x00004091 ∧ packWord (filled 16 [p, m]) 0 = 0x0000000D := by
  decide
/-- Section 2.1: the last, partial word of a window over 20 cells. -/
theorem test_packing_beyond_capacity :
    packWord (storeWord (List.replicate 20 0) 1 0xFFFFFFFF) 1 = 0x000000FF ∧
    packWord (storeWord (List.replicate 20 0) 1 0xFFFFFFFF) 0 = 0 := by decide
/-- Section 2.2. -/
theorem test_trit_sums : addMod3 .minus .minus = .plus ∧ addMod3 .plus .plus = .minus ∧ addMod3 .plus .minus = .zero ∧
    subMod3 .minus .plus = .plus ∧ subMod3 .plus .minus = .minus ∧ subMod3 .zero .plus = .minus := by decide
/-- Section 2.2: the corner steps of `bal_digits`. -/
theorem test_balDigits : balDigits (-2) = [.plus, .minus, .zero, .zero] ∧
    balDigits (-40) = [.minus, .minus, .minus, .minus] ∧ balDigits 40 = [.plus, .plus, .plus, .plus] := by decide

/-! ## The commands (sections 2.3 to 2.7) -/

theorem test_enc4 : vec (exec .enc4 (inVal 41)) = some (0x100, 0, 4, 0x00000001) := by decide
theorem test_enc4_range : vec (exec .enc4 (inVal 0xFFFFFFFF)) = some (0x002, 0, 0, 0) := by decide
theorem test_dec4 : val (exec .dec4 (inA [m, p, z, p])) = some (0x100, 0, 69) := by decide
theorem test_dec4_lowest_bad : val (exec .dec4 (inA [z, q, z, q])) = some (0x001, 1, 0) := by decide
theorem test_pad : vec (exec .pad (inA [p, z, z, z])) = some (0x100, 0, 6, 0x00000004) := by decide
theorem test_pad_length : vec (exec .pad (inA [z, p, z])) = some (0x003, 3, 0, 0) := by decide
theorem test_unpad : vec (exec .unpad (inA [z, m, p, m, p, z])) = some (0x100, 0, 4, 0x00000077) := by decide
theorem test_unpad_symbol_first : vec (exec .unpad (inA [z, p, z, z, q, p])) = some (0x001, 4, 0, 0) := by decide
theorem test_encodeCore : vec (exec .encodeCore (inVal 59)) = some (0x100, 0, 6, 0x000001C4) := by decide
theorem test_encodeCore_no_truncation : vec (exec .encodeCore (inVal 0x00000151)) = some (0x002, 0, 0, 0) := by decide
theorem test_decodeCore : val (exec .decodeCore (inA [z, p, p, p, p, z])) = some (0x100, 0, 80) := by decide
theorem test_decodeCore_late_pad : val (exec .decodeCore (inA [z, p, z, z, z, m])) = some (0x004, 5, 0) := by decide
theorem test_frame : vec (exec .frame (inA [z, p, z, z, z, z])) = some (0x100, 0, 8, 0x00004011) := by decide
theorem test_frame_symbol : vec (exec .frame (inA [z, p, z, z, q, z])) = some (0x001, 4, 0, 0) := by decide
/-- The pad trits are not checked: the result is `=+===-`. -/
theorem test_unframe : vec (exec .unframe (inA [p, z, p, z, z, z, m, p])) = some (0x100, 0, 6, 0x00000C04) := by decide
theorem test_unframe_late : vec (exec .unframe (inA [p, z, p, z, z, z, z, m])) = some (0x005, 7, 0, 0) := by decide
theorem test_capply : vec (exec .capply (inB [p, z, m, z] (inA [p, z, p, z, z, z, z, p]))) =
    some (0x100, 0, 8, 0x00007103) := by decide
theorem test_capply_pattern_checked : vec (exec .capply (inB [p, z, q] (inA [z, z]))) = some (0x201, 2, 0, 0) := by decide
theorem test_cremove : vec (exec .cremove (inB [p, m] (inA [z, z, z]))) = some (0x100, 0, 3, 0x00000037) := by decide
theorem test_cremove_empty : vec (exec .cremove (inA [z, z, z, z])) = some (0x206, 0, 0, 0) := by decide

/-! ## The host's accesses (sections 2.8 to 2.10) -/

/-- Section 2.8: an illegal word is stored and reports `ILLEGAL_COMMAND`. -/
theorem test_step_illegal : after (one (.write 0 0x11)) (fun t => (t.cmd, statusWord t, t.errOffset)) =
    some (0x11, 0x007, 0) := by decide
/-- A write of `CMD` runs the command in the same step (R27). -/
theorem test_step_command : after (one (.write 0 1)) (fun t => (t.cmd, statusWord t, packWord t.r 0)) =
    some (1, 0x100, 0xFF) := by decide
theorem test_step_fetchWord : after (step (st.withFetchWord 32 1)) (fun t => (t.cmd, t.rLen, t.pending)) =
    some (1, 4, []) := by decide
theorem test_read_constants : after (one (.read 8)) (fun t => t.readLog) = some [4] ∧
    after (one (.read 9)) (fun t => t.readLog) = some [0x10] ∧
    after (one (.read 10)) (fun t => t.readLog) = some [8] := by decide
/-- Section 2.10: `CFG` of a build with `PAD_TRIT = -1`. -/
theorem test_read_cfg_variant : cfgWord ⟨.minus, .plus, 16, 8⟩ = 7 ∧ cfgWord ⟨.plus, .plus, 16, 8⟩ = 5 := by decide
theorem test_write_readOnly_ignored : after (one (.write 1 0x100)) statusWord = some 0 ∧
    after (one (.write 0x30000 0x55)) (fun t => packWord t.r 0) = some 0 := by decide
theorem test_write_window : after (one (.write 0x20000 0xFFFFFFFF)) (fun t => packWord t.b 0) = some 0xFFFF ∧
    after (one (.write 0x10000 2)) (fun t => (cell t.a 0, packWord t.a 0)) = some (q, 2) := by decide
theorem test_write_lengths : after (one (.write 5 16)) (fun t => t.aLen) = some 16 ∧
    refusal (one (.write 5 17)) = some (.lengthAboveCapacity 5 17) ∧
    refusal (one (.write 6 9)) = some (.lengthAboveCapacity 6 9) := by decide
theorem test_unmapped_refused : refusal (one (.read 0xB)) = some (.unmappedAddress 0xB) ∧
    refusal (one (.read 0x10001)) = some (.unmappedAddress 0x10001) := by decide
/-- Section 2.10: with equal pad and frame trits a misaligned window passes `UNFRAME`. -/
theorem test_unframe_equal_trits :
    vec (exec .unframe (inA [p, p, z, z, z, p, p, p] (State.resetOf ⟨.plus, .plus, 16, 8⟩))) =
      some (0x100, 0, 6, 0x00000501) := by decide
/-- R78, `wa` and `mov_ra`: the events of two pseudo-accesses. -/
theorem test_pseudo_wa : waEvents [.plus, .zero, .minus, .zero] = [.write 5 4, .write 0x10000 0x31] ∧
    waEvents [] = [.write 5 0] := by decide
/-- R51, R77: a data name past its window has no meaning (assumption 19); R78: `mov_ra j, 0` reads no word. -/
theorem test_named_lines : lineEvents st (.wr (.aData 0) 1) = some [.write 0x10000 1] ∧
    lineEvents st (.wr (.aData 1) 1) = none ∧ lineEvents st (.rd (.rData 0x10000)) = none ∧
    movRaSliceEvents (st.putVec (List.replicate 6 .plus)) 6 0 = some [.write 5 0] := by decide
/-- A program: `wval 41`, `encode_core`, `mov_ra`, `expect STATUS = 0x100` finishes, and `A` holds `=+====`. -/
theorem test_program :
    (match runProgram [.wval 41, .command .encodeCore, .movRa, .expect .status 0x100] st with
      | .finished t => some (t.aLen, packWord t.a 0)
      | .expectFailed _ => none
      | .undefinedLine _ => none
      | .refused _ => none
      | .faulted _ => none) = some (6, 4) := by decide

/-! ## Witnesses: for each statement with hypotheses, states and operands that meet them, clause by clause -/

/-- The next state of an outcome that is one. -/
def nextOf (r : Result) : State :=
  match r with
  | .next t => t
  | .fault _ => st
  | .refused _ => st

theorem exec_nextOf (i : Instr) (s : State) : exec i s = .next (nextOf (exec i s)) := by
  obtain ⟨_, _, _, _, _, h⟩ | ⟨_, _, _, h⟩ | ⟨_, _, _, _, h⟩ := exec_cases i s <;> rw [h] <;> rfl

theorem eq_nextOf {r : Result} (h : refusal r = none) : r = .next (nextOf r) := by
  cases r with
  | next t => rfl
  | fault f => exact nomatch f
  | refused e => cases h

/-- The result of `t` moved into `A`. -/
def reload (t : State) : State := (t.putA t.r).putALen t.rLen

theorem reloadsA_reload {t : State} (h : Inv t) : ReloadsA t (reload t) :=
  ⟨(h.putA (h.r_length.trans h.a_length.symm)).putALen h.rLen_le, rfl, rfl, fun _ _ => rfl⟩

/-- The next write is one of `w` to `CMD`. -/
def cmdIn (w : Word) (s : State := st) : State := s.putPending [.write 0 w]

theorem witness_IllegalWordRaisesIllegalCommand :
    (∀ w ∈ [0x0#32, 0xB#32, 0xF#32, 0x10#32, 0xFFFFFFFF#32], (cmdIn w).pending = .write 0 w :: [] ∧
      (w.extractLsb' 4 28 ≠ 0#28 ∨ w.extractLsb' 0 4 = 0#4 ∨ 11 ≤ (w.extractLsb' 0 4).toNat)) ∧
    (∀ w ∈ [0x1#32, 0xA#32], (cmdIn w).pending = .write 0 w :: [] ∧
      ¬ (w.extractLsb' 4 28 ≠ 0#28 ∨ w.extractLsb' 0 4 = 0#4 ∨ 11 ≤ (w.extractLsb' 0 4).toNat)) := by
  simp [cmdIn]

theorem witness_StepRunsTheDecodedCommand : (cmdIn 7).pending = .write 0 7 :: [] ∧ decode 7 = .ok .frame := by decide

theorem witness_BalancedDigitsAndValueAreInverse :
    ((-40 : Int) ≤ -40 ∧ (-40 : Int) ≤ 40) ∧ ((-40 : Int) ≤ 40 ∧ (40 : Int) ≤ 40) := by decide

theorem witness_TritCodesAreTwosComplement : codeTrit 0b11#2 = some .minus ∧ (0b11#2 : Code) ≠ 0b10#2 := by decide

/-- A lane past the pattern's end, and one lane of two streams that differ elsewhere. -/
theorem witness_CarrierIsLanewise :
    (([.plus, .zero, .minus] : List Trit)[2]? = some .minus ∧ ([.plus, .zero] : List Trit)[2 % 2]? = some .plus) ∧
    (([.plus, .zero] : List Trit)[1]? = ([.minus, .zero] : List Trit)[1]? ∧ ([.plus] : List Trit) ≠ [] ∧
      ([.minus, .plus] : List Trit) ≠ [] ∧
      ([.plus] : List Trit)[1 % 1]? = ([.minus, .plus] : List Trit)[1 % 2]?) := by decide

/-- `VAL_IN` at both ends of the range and just outside them (R106, R133). -/
theorem witness_Enc4WritesBalancedDigits :
    (∀ w ∈ [0#32, 80#32], 0 ≤ (inVal w).valIn.toInt ∧ (inVal w).valIn.toInt ≤ 80) ∧
    (∀ w ∈ [81#32, 0xFFFFFFFF#32, 0x7FFFFFFF#32, 0x80000000#32],
      (inVal w).valIn.toInt < 0 ∨ 80 < (inVal w).valIn.toInt) := by simp [inVal]

theorem witness_EncodeCoreWritesTheTribble :
    (∀ w ∈ [0#32, 80#32], 0 ≤ (inVal w).valIn.toInt ∧ (inVal w).valIn.toInt ≤ 80) ∧
    (∀ w ∈ [81#32, 0xFFFFFFFF#32], (inVal w).valIn.toInt < 0 ∨ 80 < (inVal w).valIn.toInt) := by simp [inVal]

/-- The four-trit operand of `DEC4` and `PAD`: wrong lengths, a reserved code at each end, a sequence held. -/
theorem witness_Dec4WritesTheCoreValue :
    (inA []).aLen.toNat ≠ 4 ∧ (inA [z, z, z]).aLen.toNat ≠ 4 ∧ (inA [z, z, z, z, z]).aLen.toNat ≠ 4 ∧
    ((inA [q, z, z, q]).aLen.toNat = 4 ∧ FirstReserved (inA [q, z, z, q]).a 4 0) ∧
    ((inA [z, z, z, q]).aLen.toNat = 4 ∧ FirstReserved (inA [z, z, z, q]).a 4 3) ∧
    HoldsA (inA [m, p, z, p]) [.minus, .plus, .zero, .plus] :=
  ⟨by decide, by decide, by decide, ⟨by decide, by unfold FirstReserved; decide⟩,
    ⟨by decide, by unfold FirstReserved; decide⟩, by decide, by decide⟩

theorem witness_PadAddsThePadTrits :
    (inA [z, z, z]).aLen.toNat ≠ 4 ∧ (inA [z, z, z, z, z]).aLen.toNat ≠ 4 ∧
    ((inA [q, z, z, q]).aLen.toNat = 4 ∧ FirstReserved (inA [q, z, z, q]).a 4 0) ∧
    ((inA [z, z, z, q]).aLen.toNat = 4 ∧ FirstReserved (inA [z, z, z, q]).a 4 3) ∧
    HoldsA (inA [p, z, z, z]) [.plus, .zero, .zero, .zero] :=
  ⟨by decide, by decide, ⟨by decide, by unfold FirstReserved; decide⟩,
    ⟨by decide, by unfold FirstReserved; decide⟩, by decide, by decide⟩

/-- The tribble operand of `UNPAD`, `DECODE_CORE` and `FRAME`: lengths, reserved codes, each pad trit. -/
theorem witness_tribble :
    (inA [z, z, z, z, z]).aLen.toNat ≠ 6 ∧ (inA [z, z, z, z, z, z, z]).aLen.toNat ≠ 6 ∧
    ((inA [q, z, z, z, z, q]).aLen.toNat = 6 ∧ FirstReserved (inA [q, z, z, z, z, q]).a 6 0) ∧
    ((inA [z, z, z, z, z, q]).aLen.toNat = 6 ∧ FirstReserved (inA [z, z, z, z, z, q]).a 6 5) ∧
    (HoldsA (inA [p, p, z, z, z, z]) [.plus, .plus, .zero, .zero, .zero, .zero] ∧ Trit.plus ≠ st.cfg.padTrit) ∧
    (HoldsA (inA [z, p, z, z, z, m]) [.zero, .plus, .zero, .zero, .zero, .minus] ∧
      Trit.zero = st.cfg.padTrit ∧ Trit.minus ≠ st.cfg.padTrit) ∧
    HoldsA (inA [z, p, z, z, z, z]) [.zero, .plus, .zero, .zero, .zero, .zero] :=
  ⟨by decide, by decide, ⟨by decide, by unfold FirstReserved; decide⟩,
    ⟨by decide, by unfold FirstReserved; decide⟩, ⟨⟨by decide, by decide⟩, by decide⟩,
    ⟨⟨by decide, by decide⟩, by decide, by decide⟩, by decide, by decide⟩

theorem witness_UnpadChecksAndStripsThePadTrits : HoldsA (inA [z, p, z, z, z, z])
    [.zero, .plus, .zero, .zero, .zero, .zero] ∧ (inA [z, p, z, z, z, z]).cfg.padTrit = .zero :=
  ⟨witness_tribble.2.2.2.2.2.2, rfl⟩

theorem witness_DecodeCoreChecksThePadsAndWritesTheValue : HoldsA (inA [z, p, z, z, z, z])
    [.zero, .plus, .zero, .zero, .zero, .zero] ∧ (inA [z, p, z, z, z, z]).cfg.padTrit = .zero :=
  ⟨witness_tribble.2.2.2.2.2.2, rfl⟩

theorem witness_FrameAddsTheFrameTrits : (inA [z, z, z, z, z]).aLen.toNat ≠ 6 ∧
    FirstReserved (inA [z, z, z, z, z, q]).a 6 5 ∧
    HoldsA (inA [z, p, z, z, z, z]) [.zero, .plus, .zero, .zero, .zero, .zero] :=
  ⟨by decide, witness_tribble.2.2.2.1.2, witness_tribble.2.2.2.2.2.2⟩

theorem witness_UnframeChecksAndStripsTheFrameTrits :
    (inA [z, z, z, z, z, z, z]).aLen.toNat ≠ 8 ∧ (inA [p, z, p, z, z, z, z, p, z]).aLen.toNat ≠ 8 ∧
    ((inA [q, z, z, z, z, z, z, q]).aLen.toNat = 8 ∧ FirstReserved (inA [q, z, z, z, z, z, z, q]).a 8 0) ∧
    ((inA [p, z, z, z, z, z, z, q]).aLen.toNat = 8 ∧ FirstReserved (inA [p, z, z, z, z, z, z, q]).a 8 7) ∧
    (HoldsA (inA [m, z, p, z, z, z, z, p]) [.minus, .zero, .plus, .zero, .zero, .zero, .zero, .plus] ∧
      Trit.minus ≠ st.cfg.frameTrit) ∧
    (HoldsA (inA [p, z, p, z, z, z, z, z]) [.plus, .zero, .plus, .zero, .zero, .zero, .zero, .zero] ∧
      Trit.plus = st.cfg.frameTrit ∧ Trit.zero ≠ st.cfg.frameTrit) ∧
    HoldsA (inA [p, z, p, z, z, z, z, p]) [.plus, .zero, .plus, .zero, .zero, .zero, .zero, .plus] :=
  ⟨by decide, by decide, ⟨by decide, by unfold FirstReserved; decide⟩,
    ⟨by decide, by unfold FirstReserved; decide⟩, ⟨⟨by decide, by decide⟩, by decide⟩,
    ⟨⟨by decide, by decide⟩, by decide, by decide⟩, by decide, by decide⟩

/-- The carrier operands: no pattern, reserved codes in `A` and in `B` beyond the stream, and both sequences held,
an empty stream among them. -/
theorem witness_CapplyOverlaysThePattern :
    (inA [q, z]).bLen.toNat = 0 ∧
    ((inB [p] (inA [z, q])).bLen.toNat ≠ 0 ∧ FirstReserved (inB [p] (inA [z, q])).a 2 1) ∧
    ((inB [p, z, q] (inA [z, z])).bLen.toNat ≠ 0 ∧
      (∀ i, i < (inB [p, z, q] (inA [z, z])).aLen.toNat → cell (inB [p, z, q] (inA [z, z])).a i ≠ 0b10#2) ∧
      FirstReserved (inB [p, z, q] (inA [z, z])).b 3 2) ∧
    (HoldsA (inB [p] (inA [])) [] ∧ HoldsB (inB [p] (inA [])) [.plus] ∧ ([.plus] : List Trit) ≠ []) ∧
    HoldsA (inB [p, m] (inA [z, p, z])) [.zero, .plus, .zero] ∧ HoldsB (inB [p, m] (inA [z, p, z])) [.plus, .minus] :=
  ⟨by decide, ⟨by decide, by unfold FirstReserved; decide⟩,
    ⟨by decide, by decide, by unfold FirstReserved; decide⟩,
    ⟨⟨by decide, by decide⟩, ⟨by decide, by decide⟩, by decide⟩, ⟨by decide, by decide⟩, by decide, by decide⟩

theorem witness_CremoveRemovesThePattern :
    (inA [z]).bLen.toNat = 0 ∧
    ((inB [p] (inA [z, q])).bLen.toNat ≠ 0 ∧ FirstReserved (inB [p] (inA [z, q])).a 2 1) ∧
    HoldsA (inB [p, m] (inA [z, p, z])) [.zero, .plus, .zero] ∧ HoldsB (inB [p, m] (inA [z, p, z])) [.plus, .minus] :=
  ⟨by decide, witness_CapplyOverlaysThePattern.2.1, witness_CapplyOverlaysThePattern.2.2.2.2⟩

theorem witness_CremoveIsCapplyOfTheNegatedPattern :
    HoldsA (inB [p, m] (inA [z, p, z])) [.zero, .plus, .zero] ∧
    HoldsB (inB [p, m] (inA [z, p, z])) [.plus, .minus] ∧
    HoldsB (inB [m, p] (inA [z, p, z])) ([Trit.plus, .minus].map negTrit) ∧
    inB [m, p] (inA [z, p, z]) = State.putB (inB [m, p] (inA [z, p, z])).b (inB [p, m] (inA [z, p, z])) :=
  ⟨⟨by decide, by decide⟩, ⟨by decide, by decide⟩, ⟨by decide, by decide⟩, by decide⟩

/-- Every code of R201 from 0 to 7 is left by some write of `CMD` (and 1 with `ERR_OPERAND` 0 and 1). -/
theorem witness_ErrorCodeNamesItsCause :
    after (step (cmdIn 1)) (fun t => t.code) = some 0 ∧
    after (step (cmdIn 2 (inA [z, q, z, q]))) (fun t => t.code) = some 1 ∧
    after (step (cmdIn 5 (inVal 81))) (fun t => t.code) = some 2 ∧
    after (step (cmdIn 8 (inA [p]))) (fun t => t.code) = some 3 ∧
    after (step (cmdIn 4 (inA [p, z, z, z, z, z]))) (fun t => t.code) = some 4 ∧
    after (step (cmdIn 8 (inA [m, z, z, z, z, z, z, p]))) (fun t => t.code) = some 5 ∧
    after (step (cmdIn 0xA)) (fun t => t.code) = some 6 ∧
    after (step (cmdIn 0xB)) (fun t => t.code) = some 7 := by decide

theorem witness_ErrorInformationLocatesTheError :
    after (step (cmdIn 9 (inB [q] (inA [z])))) (fun t => (t.code, t.errOperand, t.errOffset)) = some (1, true, 0) ∧
    after (step (cmdIn 6 (inA [z, z, z, z, z, m]))) (fun t => (t.code, t.errOffset)) = some (4, 5) ∧
    after (step (cmdIn 1)) (fun t => (t.code, t.errOffset)) = some (0, 0) ∧
    after (step (cmdIn 8 (inA [p, z, z, z, z, z, z, m]))) (fun t => (t.code, t.errOffset)) = some (5, 7) ∧
    after (step (cmdIn 8 (inA [m, z, z, z, z, z, z, m]))) (fun t => (t.code, t.errOffset)) = some (5, 0) := by decide

/-- R202, step by step: an illegal word; a shape that fails; a reserved code in `A`, then only in `B`; a boundary trit
that fails at position 0, then at the last; and a command with nothing to report. -/
theorem witness_FirstFailingCheckIsReported :
    decode 0xB = .error .reservedOpcode ∧ shapeCode (inA [q]) .unframe ≠ 0 ∧
    (shapeCode (inA [m, z, q, z, z, z, z, p]) .unframe = 0 ∧
      FirstReserved (inA [m, z, q, z, z, z, z, p]).a (cellsOfA (inA [m, z, q, z, z, z, z, p]) .unframe) 2) ∧
    (shapeCode (inB [p, q] (inA [z])) .capply = 0 ∧
      (∀ i, i < cellsOfA (inB [p, q] (inA [z])) .capply → cell (inB [p, q] (inA [z])).a i ≠ 0b10#2) ∧
      FirstReserved (inB [p, q] (inA [z])).b (cellsOfB (inB [p, q] (inA [z])) .capply) 1) ∧
    (∀ s ∈ [inA [m, z, z, z, z, z, z, p], inA [p, z, z, z, z, z, z, m], inA [p, z, z, z, z, z, z, p]],
      shapeCode s .unframe = 0 ∧ boundaryOf s .unframe = some (5, .plus, 7) ∧
      (∀ i, i < 8 → cell s.a i ≠ 0b10#2)) ∧
    (shapeCode (inA [z, z, z, z]) .pad = 0 ∧ boundaryOf (inA [z, z, z, z]) .pad = none ∧
      ∀ i, i < 4 → cell (inA [z, z, z, z]).a i ≠ 0b10#2) :=
  ⟨by decide, by decide, ⟨by decide, by unfold FirstReserved; decide⟩,
    ⟨by decide, by decide, by unfold FirstReserved; decide⟩, by decide, by decide⟩

/-- A step of each kind: idle, a read, a write, a command, a reset, each with a next state. -/
theorem witness_StatusIsWrittenByCommandsOnly :
    ∀ s ∈ [st, st.putPending [.read 1], st.putPending [.write 3 7], cmdIn 1, cmdIn 0xB, st.putPending [.reset]],
      refusal (step s) = none := by decide

theorem witness_ResetSetsEveryRegister :
    (st.putPending [.reset]).pending = .reset :: [] ∧
    (∀ a ∈ [0#32, 8#32, 9#32, 10#32, 0x10000#32, 0x20000#32, 0x30000#32], addrMapped cfg0 a.toNat = true) := by
  simp [addrMapped, windowWords, cfg0, st]

theorem inv_st : Inv st := by constructor <;> decide

theorem inv_cmdIn : Inv (cmdIn 9 (inB [p, m] (inA [z, p, z]))) := by constructor <;> decide

theorem witness_InvariantHoldsAtReset : cfg0.wf = true ∧ Cfg.wf ⟨.plus, .plus, 8, 1⟩ = true := by decide

theorem witness_StepKeepsTheInvariant :
    Inv (cmdIn 9 (inB [p, m] (inA [z, p, z]))) ∧
    step (cmdIn 9 (inB [p, m] (inA [z, p, z]))) = .next (nextOf (step (cmdIn 9 (inB [p, m] (inA [z, p, z]))))) ∧
    (cmdIn 9 (inB [p, m] (inA [z, p, z]))).pending = .write 0 9 :: [] :=
  ⟨inv_cmdIn, eq_nextOf (by decide), rfl⟩

theorem witness_ResultRegistersAreWrittenOnCompletion :
    Inv (cmdIn 9 (inB [p, m] (inA [z, p, z]))) ∧ refusal (step (cmdIn 9 (inB [p, m] (inA [z, p, z])))) = none ∧
    after (step (cmdIn 9 (inB [p, m] (inA [z, p, z])))) (fun t => decide (t.r = st.r)) = some false ∧
    after (step (cmdIn 2 (inA [p, p, p, p]))) (fun t => decide (t.rVal = 0)) = some false :=
  ⟨inv_cmdIn, by decide, by decide, by decide⟩

/-- A write of each operand register and of `CMD` that changes it. -/
theorem witness_OperandsAreWrittenByTheHostOnly :
    after (one (.write 0x10000 1)) (fun t => decide (t.a = st.a)) = some false ∧
    after (one (.write 5 16)) (fun t => decide (t.aLen = st.aLen)) = some false ∧
    after (one (.write 0x20000 1)) (fun t => decide (t.b = st.b)) = some false ∧
    after (one (.write 6 8)) (fun t => decide (t.bLen = st.bLen)) = some false ∧
    after (one (.write 3 1)) (fun t => decide (t.valIn = st.valIn)) = some false ∧
    after (one (.write 0 1)) (fun t => decide (t.cmd = st.cmd)) = some false := by decide

/-- Two states with the same operands and different results, reports and `CMD`. -/
def other : State := nextOf (exec .frame (inVal 41 (inA [z, p, z, z, z, z])))

theorem witness_CommandsDependOnOperandsOnly :
    Inv (inVal 41 (inA [z, p, z, z, z, z])) ∧ Inv (other.putCmd 3) ∧ other.putCmd 3 ≠ inVal 41 (inA [z, p, z, z, z, z]) ∧
    (other.putCmd 3).valIn = 41 ∧ (other.putCmd 3).aLen = 6 ∧
    (other.putCmd 3).a = (inVal 41 (inA [z, p, z, z, z, z])).a ∧ (other.putCmd 3).bLen = 0 ∧
    (other.putCmd 3).b = st.b ∧ (other.putCmd 3).cfg = cfg0 ∧
    after (exec .encodeCore (other.putCmd 3)) (fun t => t.valid) = some true ∧
    after (exec .decodeCore (other.putCmd 3)) (fun t => t.valid) = some true :=
  ⟨by constructor <;> decide, by constructor <;> decide, by decide, by decide, by decide, by decide, by decide,
    by decide, by decide, by decide, by decide⟩

/-- A build with two words in the windows over `A` and `R`. -/
def cfg20 : Cfg := ⟨.zero, .plus, 20, 8⟩

theorem inv_st20 : Inv (State.resetOf cfg20) := by constructor <;> decide

/-- The addresses at the ends of every row of R51, in a build where no two rows meet. -/
theorem witness_HostAccessesFollowTheMap :
    Inv ((State.resetOf cfg20).putPending [.write 5 20]) ∧
    (∀ a ∈ [0x10000#32, 0x10001#32], a.toNat = 0x10000 + (a.toNat - 0x10000) ∧
      a.toNat - 0x10000 < (cfg20.nMax + 15) / 16) ∧
    (0x20000#32).toNat = 0x20000 + 0 ∧ 0 < (cfg20.pMax + 15) / 16 ∧
    (∀ a ∈ [0x30000#32, 0x30001#32], 0x30000 ≤ a.toNat ∧ a.toNat < 0x30000 + (cfg20.nMax + 15) / 16) ∧
    (∀ a ∈ [0xB#32, 0xFFFF#32, 0x10002#32, 0x1FFFF#32, 0x20001#32, 0x2FFFF#32, 0x30002#32, 0xFFFFFFFF#32],
      10 < a.toNat ∧ ¬ (0x10000 ≤ a.toNat ∧ a.toNat < 0x10000 + (cfg20.nMax + 15) / 16) ∧
      ¬ (0x20000 ≤ a.toNat ∧ a.toNat < 0x20000 + (cfg20.pMax + 15) / 16) ∧
      ¬ (0x30000 ≤ a.toNat ∧ a.toNat < 0x30000 + (cfg20.nMax + 15) / 16)) ∧
    (20#32).toNat ≤ cfg20.nMax ∧ cfg20.nMax < (21#32).toNat ∧ (8#32).toNat ≤ cfg20.pMax ∧ cfg20.pMax < (9#32).toNat ∧
    decode 1 = .ok .enc4 ∧ decode 0xB = .error .reservedOpcode :=
  ⟨inv_st20.putPending _, by simp [cfg20], by decide, by decide, by simp [cfg20], by simp [cfg20], by decide, by decide,
    by decide, by decide, by decide, by decide⟩

theorem witness_DataWordPacksSixteenCells :
    Inv ((State.resetOf cfg20).putPending [.read 0x10001]) ∧ (0x10001#32).toNat = 0x10000 + 1 ∧
    1 < (cfg20.nMax + 15) / 16 ∧ (0x30001#32).toNat = 0x30000 + 1 ∧ (0x20000#32).toNat = 0x20000 + 0 ∧
    0 < (cfg20.pMax + 15) / 16 :=
  ⟨inv_st20.putPending _, by decide, by decide, by decide, by decide, by decide⟩

/-- The same access twice, of every kind. -/
theorem witness_RepeatedAccessHasTheSameEffect :
    ∀ e ∈ [HostEvent.read 1, .write 0 1, .write 0 0xB, .write 5 16, .write 0x10000 0x31, .write 1 0, .reset],
      (st.putPending [e, e]).pending = e :: e :: [] ∧ refusal (step (st.putPending [e, e])) = none := by decide

theorem witness_QueueRunsInProgramOrder :
    runEvents [.write 3 41, .write 0 5, .read 7] st = .next (nextOf (runEvents [.write 3 41, .write 0 5, .read 7] st)) ∧
    hostEvent (.write 3 41) st = .next (nextOf (hostEvent (.write 3 41) st)) ∧
    refusal (one (.read 7)) = none :=
  ⟨eq_nextOf (by decide), eq_nextOf (by decide), by decide⟩

theorem witness_AdmittedQueueRunsSafely :
    ∀ e ∈ (st.putPending [.write 5 16, .write 0x10000 1, .write 0 0xFFFFFFFF, .reset, .read 0x30000]).pending,
      hostEventWf st.cfg e = true := by decide

theorem witness_AdmittedQueueStaysAdmitted :
    ∀ e ∈ (st.putPending [.reset, .write 5 16, .write 0x10000 1, .write 0 0xFFFFFFFF]).pending,
      hostEventWf st.cfg e = true := by decide

theorem witness_ConfigurationRegistersAreConstant : cfg0.wf = true ∧ (st.putPending [.read 8]).pending = .read 8 :: [] ∧
    (st.putPending [.read 9]).pending = .read 9 :: [] ∧ (st.putPending [.read 10]).pending = .read 10 :: [] ∧
    refusal (one (.write 8 0xFFFFFFFF)) = none := by decide

theorem witness_IdleStepChangesNothing : st.pending = [] := rfl

/-- `ENC4` of 0 and of 80, moved into `A`; and a core value back in `VAL_IN`. -/
theorem witness_ConversionRoundTrip :
    (∀ w ∈ [0#32, 80#32], 0 ≤ (inVal w).valIn.toInt ∧ (inVal w).valIn.toInt ≤ 80) ∧
    Inv (inVal 80) ∧ exec .enc4 (inVal 80) = .next (nextOf (exec .enc4 (inVal 80))) ∧
    ReloadsA (nextOf (exec .enc4 (inVal 80))) (reload (nextOf (exec .enc4 (inVal 80)))) ∧
    HoldsA (inA [m, p, z, p]) [.minus, .plus, .zero, .plus] ∧ Inv (inVal 69) ∧
    (inVal 69).valIn = (nextOf (exec .dec4 (inA [m, p, z, p]))).rVal :=
  ⟨by simp [inVal], by constructor <;> decide, exec_nextOf _ _, reloadsA_reload (by constructor <;> decide),
    ⟨by decide, by decide⟩, by constructor <;> decide, by decide⟩

/-- A tribble of `ENCODE_CORE` moved into `A`, and the same with each pad trit changed. -/
def tribble : State := nextOf (exec .encodeCore (inVal 41))

theorem witness_TribbleRoundTripAndPadDetection :
    Inv (inVal 41) ∧ exec .encodeCore (inVal 41) = .next tribble ∧ tribble.valid = true ∧
    ReloadsA tribble (reload tribble) ∧
    (inA [p, p, z, z, z, z]).aLen = tribble.rLen ∧ cell (inA [p, p, z, z, z, z]).a 0 = tritCode .plus ∧
    (∀ k, k < 6 → k ≠ 0 → cell (inA [p, p, z, z, z, z]).a k = cell tribble.r k) ∧
    cell (inA [z, p, z, z, z, m]).a 5 = tritCode .minus ∧
    (∀ k, k < 6 → k ≠ 5 → cell (inA [z, p, z, z, z, m]).a k = cell tribble.r k) ∧
    Trit.plus ≠ (inVal 41).cfg.padTrit ∧ Trit.minus ≠ (inVal 41).cfg.padTrit ∧
    HoldsA (inA [z, p, z, z, z, z]) ([Trit.zero] ++ [.plus, .zero, .zero, .zero] ++ [.zero]) ∧
    HoldsA (inA [z, p, z, m, z, z]) ([Trit.zero] ++ [.plus, .zero, .minus, .zero] ++ [.zero]) :=
  ⟨by constructor <;> decide, exec_nextOf _ _, by decide, reloadsA_reload (by constructor <;> decide), by decide,
    by decide, by decide, by decide, by decide, by decide, by decide, ⟨by decide, by decide⟩, by decide, by decide⟩

theorem witness_EncodeCoreIsEnc4ThenPad :
    Inv (inVal 41) ∧ exec .enc4 (inVal 41) = .next (nextOf (exec .enc4 (inVal 41))) ∧
    (nextOf (exec .enc4 (inVal 41))).valid = true ∧
    ReloadsA (nextOf (exec .enc4 (inVal 41))) (reload (nextOf (exec .enc4 (inVal 41)))) :=
  ⟨by constructor <;> decide, exec_nextOf _ _, by decide, reloadsA_reload (by constructor <;> decide)⟩

/-- `UNPAD` where it completes and where it fails. -/
theorem witness_DecodeCoreIsUnpadThenDec4 :
    Inv (inA [z, p, z, z, z, z]) ∧ (nextOf (exec .unpad (inA [z, p, z, z, z, z]))).valid = true ∧
    ReloadsA (nextOf (exec .unpad (inA [z, p, z, z, z, z]))) (reload (nextOf (exec .unpad (inA [z, p, z, z, z, z])))) ∧
    Inv (inA [p, p, z, z, z, z]) ∧ (nextOf (exec .unpad (inA [p, p, z, z, z, z]))).valid = false ∧
    exec .unpad (inA [p, p, z, z, z, z]) = .next (nextOf (exec .unpad (inA [p, p, z, z, z, z]))) :=
  ⟨by constructor <;> decide, by decide, reloadsA_reload (by constructor <;> decide), by constructor <;> decide,
    by decide, exec_nextOf _ _⟩

/-- A framed tribble with each frame trit changed; and one with each pad trit inside it changed. -/
def framed : State := nextOf (exec .frame (inA [z, p, z, z, z, z]))

theorem witness_FrameDetectsItsEndsOnly :
    Inv (inA [z, p, z, z, z, z]) ∧ exec .frame (inA [z, p, z, z, z, z]) = .next framed ∧ framed.valid = true ∧
    (inA [m, z, p, z, z, z, z, p]).aLen = framed.rLen ∧ cell (inA [m, z, p, z, z, z, z, p]).a 0 = tritCode .minus ∧
    (∀ k, k < 8 → k ≠ 0 → cell (inA [m, z, p, z, z, z, z, p]).a k = cell framed.r k) ∧
    cell (inA [p, z, p, z, z, z, z, z]).a 7 = tritCode .zero ∧
    (∀ k, k < 8 → k ≠ 7 → cell (inA [p, z, p, z, z, z, z, z]).a k = cell framed.r k) ∧
    Trit.minus ≠ st.cfg.frameTrit ∧ Trit.zero ≠ st.cfg.frameTrit ∧
    Inv (inA [p, z, p, z, z, z, m, p]) ∧
    HoldsA (inA [p, z, p, z, z, z, m, p]) [.plus, .zero, .plus, .zero, .zero, .zero, .minus, .plus] ∧
    ReloadsA (nextOf (exec .unframe (inA [p, z, p, z, z, z, m, p])))
      (reload (nextOf (exec .unframe (inA [p, z, p, z, z, z, m, p])))) :=
  ⟨by constructor <;> decide, exec_nextOf _ _, by decide, by decide, by decide, by decide, by decide, by decide,
    by decide, by decide, by constructor <;> decide, ⟨by decide, by decide⟩,
    reloadsA_reload (by constructor <;> decide)⟩

/-- A stream of two units, its two misaligned windows (section 2.7), and the late one with equal trits (2.10). -/
def cores : List (List Trit) := [[.plus, .zero, .zero, .zero], [.plus, .zero, .zero, .zero]]

theorem witness_MisalignedWindowLosesSync :
    (∀ c ∈ cores, c.length = 4) ∧ 0 + 2 ≤ cores.length ∧ st.cfg.padTrit ≠ st.cfg.frameTrit ∧
    HoldsA (inA [z, p, z, z, z, z, p, p]) (((framedStream cfg0 cores).drop (8 * 0 + 1)).take 8) ∧
    HoldsA (inA [p, p, z, p, z, z, z, z]) (((framedStream cfg0 cores).drop (8 * 0 + 7)).take 8) ∧
    HoldsA (inA [p, p, z, z, z, p, p, p] (State.resetOf ⟨.plus, .plus, 16, 8⟩))
      (((framedStream ⟨.plus, .plus, 16, 8⟩ cores).drop (8 * 0 + 1)).take 8) :=
  ⟨by decide, by decide, by decide, ⟨by decide, by decide⟩, ⟨by decide, by decide⟩, by decide, by decide⟩

/-- `CAPPLY`, its result moved into `A` beside the same pattern. -/
def overlaid : State := nextOf (exec .capply (inB [p, m] (inA [z, p, z])))

theorem witness_CarrierRoundTrip :
    Inv (inB [p, m] (inA [z, p, z])) ∧ HoldsA (inB [p, m] (inA [z, p, z])) [.zero, .plus, .zero] ∧
    HoldsB (inB [p, m] (inA [z, p, z])) [.plus, .minus] ∧ ReloadsA overlaid (reload overlaid) ∧
    (reload overlaid).bLen = (inB [p, m] (inA [z, p, z])).bLen ∧
    (reload overlaid).b = (inB [p, m] (inA [z, p, z])).b ∧
    HoldsA (inB [p] (inA [])) [] ∧ HoldsB (inB [p] (inA [])) [.plus] :=
  ⟨by constructor <;> decide, ⟨by decide, by decide⟩, ⟨by decide, by decide⟩,
    reloadsA_reload (by constructor <;> decide), by decide, by decide, ⟨by decide, by decide⟩, by decide, by decide⟩

theorem witness_CoreValueSurvivesTheWholeBlock : ∃ s0 s1 s2 s3 t0 t1 t2 : State, Inv s0 ∧ 0 ≤ s0.valIn.toInt ∧
    s0.valIn.toInt ≤ 80 ∧ exec .encodeCore s0 = .next t0 ∧ ReloadsA t0 s1 ∧ exec .frame s1 = .next t1 ∧
    ReloadsA t1 s2 ∧ exec .unframe s2 = .next t2 ∧ ReloadsA t2 s3 :=
  ⟨inVal 41, _, _, _, _, _, _, by constructor <;> decide, by decide, by decide, exec_nextOf _ _,
    reloadsA_reload (by constructor <;> decide), exec_nextOf _ _, reloadsA_reload (by constructor <;> decide),
    exec_nextOf _ _, reloadsA_reload (by constructor <;> decide)⟩

/-- A load of nothing and one that fills each buffer. -/
theorem witness_LoadPseudoAccessesLoadTheSequence : Inv st ∧ ([] : List Trit).length ≤ st.cfg.nMax ∧
    (List.replicate 16 Trit.plus).length ≤ st.cfg.nMax ∧ (List.replicate 8 Trit.plus).length ≤ st.cfg.pMax :=
  ⟨inv_st, by decide, by decide, by decide⟩

theorem witness_MovRaReloadsTheResult : Inv tribble ∧ tribble.rLen = 6 :=
  ⟨by constructor <;> decide, by decide⟩

/-- The last cells of a result, and one cell too many. -/
theorem witness_MovRaSliceCopiesTheCells : Inv tribble ∧ 2 + 4 ≤ tribble.rLen.toNat ∧ 6 + 0 ≤ tribble.rLen.toNat ∧
    tribble.rLen.toNat < 3 + 4 := ⟨by constructor <;> decide, by decide, by decide, by decide⟩

end Sys2Proof.Tests
end

section
/-! Layer under the statements about the state (10_state.md): one step seen by its event, what a write of `CMD`
leaves, and which registers every other access leaves alone. -/

namespace Sys2Proof.Machine

/-! ## A step by its event -/

/-- The host's queue is no register. -/
@[simp] theorem readReg_putPending (s : State) (es : List HostEvent) (reg : Reg) :
    readReg (s.putPending es) reg = readReg s reg := by cases reg <;> rfl

/-- A read at a mapped address hands the register's word to the host (R52). -/
theorem step_read {s : State} {a : Word} {rest : List HostEvent} {reg : Reg} (h : s.pending = .read a :: rest)
    (hr : regAt s.cfg a = some reg) : step s = .next ((s.putPending rest).logRead (readReg s reg)) := by
  rw [step_cons h, hostEvent, hostRead, State.putPending_cfg, hr]
  exact congrArg (fun w => Host.Outcome.next ((s.putPending rest).logRead w)) (readReg_putPending s rest reg)

/-- The reset signal is `hostReset` (R230). -/
theorem step_reset {s : State} {rest : List HostEvent} (h : s.pending = .reset :: rest) :
    step s = .next (hostReset (s.putPending rest)) := step_cons h

/-- A write at word address 0 is a write of `CMD` (R51). -/
theorem step_write_cmd {s : State} {w : Word} {rest : List HostEvent} (h : s.pending = .write 0 w :: rest) :
    step s = issue w (s.putPending rest) := step_cons h

/-! ## What a write of `CMD` leaves -/

/-- Everything a write of `CMD` can leave: an error report with a code from 1 to 7, or the result of a legal
command with the success report. -/
theorem issue_outcome (w : Word) (s : State) :
    (∃ c o f, 1 ≤ c.toNat ∧ c.toNat ≤ 7 ∧ issue w s = .next ((s.putCmd w).report false c o f)) ∨
    (∃ i ts, decode w = .ok i ∧ writesVec i = true ∧ (ts.length ≤ 8 ∨ ts.length = s.aLen.toNat) ∧
      issue w s = completeVec ts (s.putCmd w)) ∨
    (∃ i v, decode w = .ok i ∧ writesVec i = false ∧ 0 ≤ v ∧ v ≤ 80 ∧
      issue w s = completeVal v (s.putCmd w)) := by
  obtain ⟨i, hd, hi⟩ | ⟨_, _, hi⟩ := issue_cases w s
  · obtain ⟨c, o, f, h1, h6, he⟩ | ⟨ts, hv, hl, he⟩ | ⟨v, hv, h0, h80, he⟩ := exec_cases i (s.putCmd w)
    · exact .inl ⟨c, o, f, h1, by omega, hi.trans he⟩
    · exact .inr (.inl ⟨i, ts, hd, hv, hl, hi.trans he⟩)
    · exact .inr (.inr ⟨i, v, hd, hv, h0, h80, hi.trans he⟩)
  · exact .inl ⟨7, false, 0, by decide, by decide, hi⟩

/-- The commands whose result is a core value (R26). -/
theorem writesVec_eq_false {i : Instr} : writesVec i = false ↔ i = .dec4 ∨ i = .decodeCore := by
  cases i <;> decide

/-- A write of `CMD` always answers a next state, and its report is success or an error, never the report of
reset (R28). -/
theorem issue_reports (w : Word) (s : State) :
    ∃ t, issue w s = .next t ∧
      ((t.valid = true ∧ t.code = 0 ∧ t.errOperand = false) ∨ (t.valid = false ∧ t.code ≠ 0)) := by
  obtain ⟨c, o, f, h1, _, he⟩ | ⟨_, ts, _, _, _, he⟩ | ⟨_, v, _, _, _, _, he⟩ := issue_outcome w s
  · refine ⟨_, he, .inr ⟨rfl, ?_⟩⟩
    rintro (rfl : c = 0)
    exact absurd h1 (by decide)
  · exact ⟨_, he, .inl ⟨rfl, rfl, rfl⟩⟩
  · exact ⟨_, he, .inl ⟨rfl, rfl, rfl⟩⟩

section
variable (v : Bool) (c : BitVec 4) (o : Bool) (f : Word)

/-- No command reads the report: the operand checks read `A`, `B`, the lengths and `VAL_IN` only, and each way a
command ends writes the whole report (R28, R205). -/
@[simp] theorem exec_report (i : Instr) (s : State) : exec i (s.report v c o f) = exec i s := by
  cases i <;> rfl

/-- Nor does the write of `CMD` around it. -/
@[simp] theorem issue_report (w : Word) (s : State) : issue w (s.report v c o f) = issue w s := by
  have hp : (s.report v c o f).putCmd w = (s.putCmd w).report v c o f := rfl
  unfold issue
  cases decode w with
  | ok i => exact (congrArg (exec i) hp).trans (exec_report v c o f i _)
  | error _ => rfl

end

/-! ## What every other access leaves alone -/

/-- The registers that only commands and a reset write (R24, R26, R28, R29), and the configuration (R6), are the
same in both states. -/
structure SameOutputs (s t : State) : Prop where
  valid      : t.valid = s.valid
  code       : t.code = s.code
  errOperand : t.errOperand = s.errOperand
  errOffset  : t.errOffset = s.errOffset
  rVal       : t.rVal = s.rVal
  rLen       : t.rLen = s.rLen
  r          : t.r = s.r
  cfg        : t.cfg = s.cfg

theorem hostRead_sameOutputs {a : Word} {s t : State} (h : hostRead a s = .next t) : SameOutputs s t := by
  obtain ⟨_, he⟩ | ⟨_, _, he⟩ := hostRead_cases a s <;> rw [he] at h
  · nomatch h
  · cases h; exact ⟨rfl, rfl, rfl, rfl, rfl, rfl, rfl, rfl⟩

/-- A host write is a write of `CMD`, or leaves the outputs alone. -/
theorem hostWrite_next_cases {a w : Word} {s t : State} (h : hostWrite a w s = .next t) :
    (a = 0 ∧ issue w s = .next t) ∨ SameOutputs s t := by
  obtain ⟨_, he⟩ | ⟨hr, he⟩ | ⟨_, he⟩ | ⟨_, _, he⟩ | ⟨_, _, he⟩ | ⟨_, _, he⟩ | ⟨_, _, he⟩ | ⟨_, _, he⟩ |
    ⟨_, _, he⟩ | ⟨_, _, he⟩ := hostWrite_cases a w s <;> rw [he] at h
  case inr.inl => exact .inl ⟨BitVec.eq_of_toNat_eq (regAt_home hr), h⟩
  -- A refused write has no next state; each other one updates an operand, or nothing.
  all_goals cases h <;> exact .inr ⟨rfl, rfl, rfl, rfl, rfl, rfl, rfl, rfl⟩

/-- Everything that can reach the outputs in one step: a reset or a write of `CMD`. -/
theorem step_next_cases {s t : State} (h : step s = .next t) :
    SameOutputs s t ∨
    (∃ rest, s.pending = .reset :: rest ∧ t = hostReset (s.putPending rest)) ∨
    (∃ w rest, s.pending = .write 0 w :: rest ∧ issue w (s.putPending rest) = .next t) := by
  -- Taking the event off the queue touches no output, so `SameOutputs` passes from one state to the other.
  have off {rest : List HostEvent} (ho : SameOutputs (s.putPending rest) t) : SameOutputs s t := { ho with }
  obtain ⟨_, he⟩ | ⟨rest, hp, he⟩ | ⟨a, rest, _, he⟩ | ⟨a, w, rest, hp, he⟩ := step_cases s <;> rw [he] at h
  · cases h; exact .inl ⟨rfl, rfl, rfl, rfl, rfl, rfl, rfl, rfl⟩
  · exact .inr (.inl ⟨rest, hp, (Host.Outcome.next.inj h).symm⟩)
  · exact .inl (off (hostRead_sameOutputs h))
  · obtain ⟨rfl, hi⟩ | ho := hostWrite_next_cases h
    · exact .inr (.inr ⟨w, rest, hp, hi⟩)
    · exact .inl (off ho)

theorem issue_cfg {w : Word} {s t : State} (h : issue w s = .next t) : t.cfg = s.cfg := by
  obtain ⟨_, _, _, _, _, he⟩ | ⟨_, _, _, _, _, he⟩ | ⟨_, _, _, _, _, _, he⟩ := issue_outcome w s <;>
    (rw [he] at h; cases h; rfl)

/-- Every step keeps the configuration (R6, R30). -/
theorem step_cfg {s t : State} (h : step s = .next t) : t.cfg = s.cfg := by
  obtain ho | ⟨_, _, rfl⟩ | ⟨_, _, _, hi⟩ := step_next_cases h
  · exact ho.cfg
  · rfl
  · exact (issue_cfg hi).trans rfl

/-! ## The packed words -/

section
variable (s : State)

theorem statusWord_code : (statusWord s).extractLsb' 0 4 = s.code := BitVec.extractLsb'_append_eq_right

theorem statusWord_valid : (statusWord s).getLsbD 8 = s.valid := by
  simp only [statusWord, BitVec.getLsbD_append]
  simp

theorem statusWord_errOperand : (statusWord s).getLsbD 9 = s.errOperand := by
  simp only [statusWord, BitVec.getLsbD_append]
  simp

/-- The fields between `CODE` and `VALID` and above `ERR_OPERAND` read 0 (R28). -/
theorem statusWord_zeros :
    (statusWord s).extractLsb' 4 4 = 0#4 ∧ (statusWord s).extractLsb' 10 22 = 0#22 := by
  constructor
  · rw [statusWord, BitVec.extractLsb'_append_eq_of_le (by decide)]
    exact BitVec.extractLsb'_append_eq_right
  · rw [statusWord, BitVec.extractLsb'_append_eq_of_le (by decide), BitVec.extractLsb'_append_eq_of_le (by decide),
      BitVec.extractLsb'_append_eq_of_le (by decide)]
    exact BitVec.extractLsb'_append_eq_left

end

/-- With its three fields 0, `STATUS` reads 0. -/
theorem statusWord_eq_zero {s : State} (hv : s.valid = false) (hc : s.code = 0) (ho : s.errOperand = false) :
    statusWord s = 0 := by
  simp [statusWord, hv, hc, ho]

/-- `CFG` packs two codes and zeros (R30). -/
theorem cfgWord_fields (c : Cfg) : (cfgWord c).extractLsb' 0 2 = tritCode c.padTrit ∧
    (cfgWord c).extractLsb' 2 2 = tritCode c.frameTrit ∧ (cfgWord c).extractLsb' 4 28 = 0#28 := by
  refine ⟨BitVec.extractLsb'_append_eq_right, ?_, ?_⟩ <;>
    rw [cfgWord, BitVec.extractLsb'_append_eq_of_le (by decide)]
  · exact BitVec.extractLsb'_append_eq_right
  · exact BitVec.extractLsb'_append_eq_left

/-- `CAP_N` and `CAP_P` hold the capacities of an allowed configuration (R31). -/
theorem capWords_toNat {c : Cfg} (h : c.wf = true) : (capNWord c).toNat = c.nMax ∧ (capPWord c).toNat = c.pMax := by
  have hw := Cfg.wf_iff.1 h
  rw [capNWord, capPWord, BitVec.toNat_ofNat, BitVec.toNat_ofNat]
  omega

/-! ## Reading right after reset -/

theorem cell_replicate (n i : Nat) : cell (List.replicate n 0) i = 0 := by
  by_cases h : i < n <;> simp [cell, h]

theorem packFrom_replicate (n i k : Nat) : packFrom (List.replicate n 0) i k = 0 := by
  induction k generalizing i with
  | zero => rfl
  | succ k ih => rw [packFrom, ih, cell_replicate]; rfl

theorem packWord_replicate (n k : Nat) : packWord (List.replicate n 0) k = 0 := by
  rw [packWord, packFrom_replicate]; rfl

/-- Right after reset every register but the configuration's reads 0 (R34). -/
theorem readReg_resetOf_eq_zero {c : Cfg} {n : Nat} {reg : Reg} (h : HomeOf c n reg) (h8 : n ≠ 8) (h9 : n ≠ 9)
    (h10 : n ≠ 10) (es : List HostEvent) : readReg ((State.resetOf c).putPending es) reg = 0 := by
  cases reg with
  | cfg => exact absurd h h8
  | capN => exact absurd h h9
  | capP => exact absurd h h10
  | status => exact statusWord_eq_zero rfl rfl rfl
  | aData k => exact packWord_replicate c.nMax k
  | bData k => exact packWord_replicate c.pMax k
  | rData k => exact packWord_replicate c.nMax k
  | _ => rfl

/-- What a mapped address reads as right after reset: its constant at 8, 9 and 10, else 0. -/
theorem readReg_resetOf {c : Cfg} {a : Word} {reg : Reg} (hr : regAt c a = some reg) (es : List HostEvent) :
    readReg ((State.resetOf c).putPending es) reg =
      if a = 8 then cfgWord c else if a = 9 then capNWord c else if a = 10 then capPWord c else 0 := by
  have ne {n : Nat} (h : a ≠ BitVec.ofNat 32 n) : a.toNat ≠ n := fun hn => h (by simp [← hn])
  split_ifs with h8 h9 h10
  · subst h8; cases hr; rfl
  · subst h9; cases hr; rfl
  · subst h10; cases hr; rfl
  · exact readReg_resetOf_eq_zero (regAt_home hr) (ne h8) (ne h9) (ne h10) es

end Sys2Proof.Machine
end

section
/-! The statements about the state (10_state.md). -/

namespace Sys2Proof.Machine

/-- Settles O23, by what a write of `CMD` leaves and what every other access leaves alone. -/
theorem statusIsWrittenByCommandsOnly : Obligations.StatusIsWrittenByCommandsOnly := by
  refine ⟨fun s => ⟨statusWord_code s, (statusWord_zeros s).1, statusWord_valid s, statusWord_errOperand s,
    (statusWord_zeros s).2⟩, fun s t h => ?_, fun s w rest h => ?_⟩
  · obtain ho | ⟨rest, hp, rfl⟩ | ⟨w, rest, hp, hi⟩ := step_next_cases h
    · exact .inl ⟨ho.valid, ho.code, ho.errOperand, ho.errOffset⟩
    · exact .inr (.inl ⟨rest, hp, rfl, rfl, rfl, rfl⟩)
    · obtain ⟨t', ht', hreport⟩ := issue_reports w (s.putPending rest)
      obtain rfl := Host.Outcome.next.inj (ht'.symm.trans hi)
      exact .inr (.inr ⟨w, rest, hp, hreport⟩)
  · obtain ⟨t, ht, hreport⟩ := issue_reports w (s.putPending rest)
    refine ⟨t, (step_write_cmd h).trans ht, ?_, fun v c o f => ?_⟩
    · obtain ⟨hv, hc, _⟩ | ⟨hv, hc⟩ := hreport
      · exact iff_of_true hv hc
      · exact iff_of_false (by simp [hv]) hc
    · calc step (s.report v c o f)
          = issue w ((s.report v c o f).putPending rest) := step_write_cmd h
        _ = issue w (s.putPending rest) := issue_report v c o f w (s.putPending rest)
        _ = .next t := ht

/-- Settles O27: a step that reaches the result registers is a reset or a write of `CMD`, and the invariant makes
room in `R` for every sequence that a command completes with. -/
theorem resultRegistersAreWrittenOnCompletion : Obligations.ResultRegistersAreWrittenOnCompletion := by
  intro s t hI h
  obtain ho | ⟨rest, hp, _⟩ | ⟨w, rest, hp, hi⟩ := step_next_cases h
  · exact .inr (.inl ⟨ho.r, ho.rLen, ho.rVal⟩)
  · exact .inl ⟨rest, hp⟩
  · obtain ⟨c, o, f, _, _, he⟩ | ⟨i, ts, hd, hv, hl, he⟩ | ⟨i, v, hd, hv, h0, h80, he⟩ :=
      issue_outcome w (s.putPending rest) <;> rw [he] at hi
    · cases hi
      exact .inr (.inl ⟨rfl, rfl, rfl⟩)
    · have hfit : ts.length ≤ s.cfg.nMax := by
        have h8 := hI.nMax_ge
        have ha := hI.aLen_le
        rw [State.putPending_aLen] at hl
        omega
      have hh : Holds t.r t.rLen ts := holds_of_completeVec ((hI.putPending rest).putCmd w) hfit hi
      cases hi
      exact .inr (.inr (.inl ⟨w, rest, i, hp, hd, hv, rfl, rfl, ts, hh.length_eq, hh.cells,
        fun k hk => cell_writeTrits_ge hk⟩))
    · cases hi
      refine .inr (.inr (.inr ⟨w, rest, hp, ?_, rfl, rfl, rfl, ?_⟩))
      · obtain rfl | rfl := writesVec_eq_false.1 hv
        · exact .inl hd
        · exact .inr hd
      · rw [State.report_rVal, State.putVal_rVal, BitVec.toNat_ofNat]
        omega

/-- Settles O24, register by register and, for the reads, by where each register stands in the map. -/
theorem resetSetsEveryRegister : Obligations.ResetSetsEveryRegister := by
  refine ⟨fun s rest h => ?_, ?_, fun c a h => ?_⟩
  · exact ⟨_, step_reset h, rfl, rfl, rfl, rfl, rfl, rfl, rfl, rfl, rfl, rfl, rfl, rfl, rfl, rfl,
      statusWord_eq_zero rfl rfl rfl⟩
  · exact ⟨rfl, rfl, rfl, rfl, rfl, rfl, rfl, rfl, rfl, rfl,
      fun i => ⟨cell_replicate _ i, cell_replicate _ i, cell_replicate _ i⟩, statusWord_eq_zero rfl rfl rfl⟩
  · obtain ⟨reg, hr⟩ := Option.isSome_iff_exists.1 ((regAt_isSome c a).trans h)
    have hs : ((State.resetOf c).putPending [.read a]).pending = .read a :: [] := rfl
    refine (step_read hs hr).trans ?_
    rw [readReg_resetOf hr]
    rfl

/-- Settles O36: the packing, the three reads by their addresses, and `step_cfg`. -/
theorem configurationRegistersAreConstant : Obligations.ConfigurationRegistersAreConstant :=
  ⟨cfgWord_fields, fun _ => capWords_toNat,
    fun _ _ => ⟨fun h => step_read h rfl, fun h => step_read h rfl, fun h => step_read h rfl⟩, fun _ _ => step_cfg⟩

end Sys2Proof.Machine
end

section
/-! Layer under the statements about the host's accesses (20_memory.md): one access seen by the register at its
address, and how a command ends in two states with the same operands. -/

namespace Sys2Proof.Machine

/-! ## Where an address leads (R51) -/

section
variable {c : Cfg} {a : Word} {k : Nat}

theorem regAt_aWindow (hc : c.wf = true) (ha : a.toNat = 0x10000 + k) (hk : k < (c.nMax + 15) / 16) :
    regAt c a = some (.aData k) := regAt_of_home hc ⟨ha, hk⟩

theorem regAt_bWindow (hc : c.wf = true) (ha : a.toNat = 0x20000 + k) (hk : k < (c.pMax + 15) / 16) :
    regAt c a = some (.bData k) := regAt_of_home hc ⟨ha, hk⟩

theorem regAt_rWindow (hc : c.wf = true) (ha : a.toNat = 0x30000 + k) (hk : k < (c.nMax + 15) / 16) :
    regAt c a = some (.rData k) := regAt_of_home hc ⟨ha, hk⟩

/-- Above the registers and outside the three windows nothing answers. -/
theorem regAt_eq_none (h : 10 < a.toNat)
    (hA : ¬ (0x10000 ≤ a.toNat ∧ a.toNat < 0x10000 + (c.nMax + 15) / 16))
    (hB : ¬ (0x20000 ≤ a.toNat ∧ a.toNat < 0x20000 + (c.pMax + 15) / 16))
    (hR : ¬ (0x30000 ≤ a.toNat ∧ a.toNat < 0x30000 + (c.nMax + 15) / 16)) : regAt c a = none :=
  (regAt_window h).trans ((if_neg hA).trans ((if_neg hB).trans (if_neg hR)))

end

/-! ## One access (R52) -/

section
variable {s : State} {a w : Word} {rest : List HostEvent}

theorem step_write {reg : Reg} (h : s.pending = .write a w :: rest) (hr : regAt s.cfg a = some reg) :
    step s = writeReg a w (s.putPending rest) reg := by
  rw [step_cons h, hostEvent, hostWrite, State.putPending_cfg, hr]

theorem step_read_unmapped (h : s.pending = .read a :: rest) (hr : regAt s.cfg a = none) :
    step s = .refused (.unmappedAddress a) := by
  rw [step_cons h, hostEvent, hostRead, State.putPending_cfg, hr]

theorem step_write_unmapped (h : s.pending = .write a w :: rest) (hr : regAt s.cfg a = none) :
    step s = .refused (.unmappedAddress a) := by
  rw [step_cons h, hostEvent, hostWrite, State.putPending_cfg, hr]

/-- A legal word of `CMD` is stored and its command runs (R27). -/
theorem issue_of_ok {i : Instr} (hd : decode w = .ok i) (s : State) : issue w s = exec i (s.putCmd w) := by
  rw [issue, hd]

/-- Every other word is stored too, and raises `ILLEGAL_COMMAND` (R74). -/
theorem issue_of_illegal (hd : ∀ i, decode w ≠ .ok i) (s : State) :
    issue w s = .next (failed (s.putCmd w) 7 false 0) := by
  obtain ⟨i, hi, _⟩ | ⟨_, _, he⟩ := issue_cases w s
  · exact absurd hi (hd i)
  · exact he

end

/-! ## Data words (R53) -/

/-- A data word by its cells, with `0b00` at or above the capacity. -/
theorem packWord_field (buf : TritBuf) {k j : Nat} (hj : j < 16) :
    (packWord buf k).extractLsb' (2 * j) 2 = if 16 * k + j < buf.length then cell buf (16 * k + j) else 0b00#2 := by
  refine (wordCode_packWord buf k j hj).trans ?_
  split_ifs with h
  · rfl
  · exact cell_of_length_le (not_lt.1 h)

/-- The sixteen cells of a written window word that exist take its fields. -/
theorem cell_storeWord_field {buf : TritBuf} {k j : Nat} (w : Word) (hj : j < 16) (h : 16 * k + j < buf.length) :
    cell (storeWord buf k w) (16 * k + j) = w.extractLsb' (2 * j) 2 := by
  rw [cell_storeWord, if_pos ⟨by omega, by omega, h⟩, Nat.add_sub_cancel_left, wordCode]

/-- The cells of the other window words stay. -/
theorem cell_storeWord_other {buf : TritBuf} {k i : Nat} (w : Word) (h : ¬ (16 * k ≤ i ∧ i < 16 * k + 16)) :
    cell (storeWord buf k w) i = cell buf i := by
  rw [cell_storeWord, if_neg fun hi => h ⟨hi.1, hi.2.1⟩]

/-! ## How a command ends, by its operands alone (R20) -/

/-- Everything a command reads is the same in both states. -/
structure SameOperands (s t : State) : Prop where
  valIn : t.valIn = s.valIn
  aLen  : t.aLen = s.aLen
  a     : t.a = s.a
  bLen  : t.bLen = s.bLen
  b     : t.b = s.b
  cfg   : t.cfg = s.cfg

/-- What a command leaves behind: an error report (R200), or a result with the success report (R205). -/
inductive Ending where
  | error (code : BitVec 4) (opnd : Bool) (off : Word)
  | vec (ts : List Trit)
  | val (v : Int)

/-- The state after a command that ends in `e`. -/
def Ending.leave (s : State) : Ending → State
  | .error code opnd off => s.report false code opnd off
  | .vec ts => (s.putVec ts).report true 0 false 0
  | .val v => (s.putVal v).report true 0 false 0

/-- The two results are one ending, each left in its own state. -/
def EndAlike (s t : State) (x y : Result) : Prop := ∃ e : Ending, x = .next (e.leave s) ∧ y = .next (e.leave t)

section
variable {s t : State}

theorem raise_endAlike (e : ErrCode) (off : Word) (opnd : Bool) :
    EndAlike s t (raise e off opnd s) (raise e off opnd t) := ⟨.error (errNumber e) opnd off, rfl, rfl⟩

theorem completeVec_endAlike {ts ts' : List Trit} (h : ts' = ts) :
    EndAlike s t (completeVec ts s) (completeVec ts' t) := ⟨.vec ts, rfl, h ▸ rfl⟩

theorem completeVal_endAlike (v : Int) : EndAlike s t (completeVal v s) (completeVal v t) := ⟨.val v, rfl, rfl⟩

theorem withTrits_endAlike (buf : TritBuf) (n : Nat) (opnd : Bool) {k k' : List Trit → Result}
    (hk : ∀ ts, EndAlike s t (k ts) (k' ts)) :
    EndAlike s t (withTrits buf n opnd s k) (withTrits buf n opnd t k') := by
  unfold withTrits
  cases firstInvalid buf n with
  | some i => exact raise_endAlike _ _ _
  | none => exact hk _

theorem withBoundary_endAlike (e : ErrCode) (b : Trit) (last : Nat) (ts : List Trit) {k k' : Unit → Result}
    (hk : EndAlike s t (k ()) (k' ())) :
    EndAlike s t (withBoundary e b last ts s k) (withBoundary e b last ts t k') := by
  unfold withBoundary
  split_ifs
  · exact raise_endAlike _ _ _
  · exact raise_endAlike _ _ _
  · exact hk

variable (h : SameOperands s t)
include h

theorem withUnit_endAlike (n : Nat) {k k' : List Trit → Result} (hk : ∀ ts, EndAlike s t (k ts) (k' ts)) :
    EndAlike s t (withUnit n s k) (withUnit n t k') := by
  unfold withUnit
  rw [h.aLen, h.a]
  split_ifs
  · exact raise_endAlike _ _ _
  · exact withTrits_endAlike _ _ _ hk

theorem withTribble_endAlike {k k' : List Trit → Result} (hk : ∀ ts, EndAlike s t (k ts) (k' ts)) :
    EndAlike s t (withTribble s k) (withTribble t k') := by
  unfold withTribble
  rw [h.cfg]
  exact withUnit_endAlike h _ fun _ => withBoundary_endAlike _ _ _ _ (hk _)

theorem withCoreValue_endAlike {k k' : Int → Result} (hk : ∀ v, EndAlike s t (k v) (k' v)) :
    EndAlike s t (withCoreValue s k) (withCoreValue t k') := by
  unfold withCoreValue
  rw [h.valIn]
  split_ifs
  · exact raise_endAlike _ _ _
  · exact hk _

theorem withCarrier_endAlike {k k' : List Trit → List Trit → Result}
    (hk : ∀ x p, EndAlike s t (k x p) (k' x p)) : EndAlike s t (withCarrier s k) (withCarrier t k') := by
  unfold withCarrier
  rw [h.aLen, h.a, h.bLen, h.b]
  split_ifs
  · exact raise_endAlike _ _ _
  · exact withTrits_endAlike _ _ _ fun x => withTrits_endAlike _ _ _ (hk x)

/-- A command ends alike in states with the same operands: earlier results, the report, `CMD` and the host's queue
play no part (R20). -/
theorem exec_endAlike (i : Instr) : EndAlike s t (exec i s) (exec i t) := by
  cases i with
  | enc4 => unfold exec execEnc4; exact withCoreValue_endAlike h fun _ => completeVec_endAlike rfl
  | dec4 => unfold exec execDec4; exact withUnit_endAlike h 4 fun _ => completeVal_endAlike _
  | pad => unfold exec execPad; exact withUnit_endAlike h 4 fun _ => completeVec_endAlike (by rw [h.cfg])
  | unpad => unfold exec execUnpad; exact withTribble_endAlike h fun _ => completeVec_endAlike rfl
  | encodeCore =>
    unfold exec execEncodeCore; exact withCoreValue_endAlike h fun _ => completeVec_endAlike (by rw [h.cfg])
  | decodeCore => unfold exec execDecodeCore; exact withTribble_endAlike h fun _ => completeVal_endAlike _
  | frame => unfold exec execFrame; exact withUnit_endAlike h 6 fun _ => completeVec_endAlike (by rw [h.cfg])
  | unframe =>
    unfold exec execUnframe
    rw [h.cfg]
    exact withUnit_endAlike h 8 fun _ => withBoundary_endAlike _ _ _ _ (completeVec_endAlike rfl)
  | capply => unfold exec execCapply; exact withCarrier_endAlike h fun _ _ => completeVec_endAlike rfl
  | cremove => unfold exec execCremove; exact withCarrier_endAlike h fun _ _ => completeVec_endAlike rfl

/-- So does a write of one word to `CMD`, legal or not. -/
theorem issue_endAlike (w : Word) : EndAlike (s.putCmd w) (t.putCmd w) (issue w s) (issue w t) := by
  unfold issue
  cases decode w with
  | ok i =>
    have hw : SameOperands (s.putCmd w) (t.putCmd w) := { h with }
    exact exec_endAlike hw i
  | error _ => exact raise_endAlike _ _ _

end

/-! ## The same access again (R56) -/

/-- The host's record of its reads is no register. -/
@[simp] theorem readReg_logRead (s : State) (w : Word) (reg : Reg) : readReg (s.logRead w) reg = readReg s reg := by
  cases reg <;> rfl

/-- The same result written twice is written once. -/
theorem State.putVec_putVec (s : State) (ts : List Trit) : (s.putVec ts).putVec ts = s.putVec ts := by
  simp only [State.putVec, writeTrits_writeTrits]

/-- The state a write of `CMD` left is left as it is by the same write, whatever is queued by then. -/
theorem Ending.leave_again (e : Ending) (s : State) (w : Word) (es : List HostEvent) :
    e.leave (((e.leave (s.putCmd w)).putPending es).putCmd w) = (e.leave (s.putCmd w)).putPending es := by
  cases e with
  | error => rfl
  | vec ts =>
    have hv := State.putVec_putVec (s.putCmd w) ts
    exact congrArg (fun u => (State.report true 0 false 0 u).putPending es) hv
  | val => rfl

section
variable {s t : State} {a w : Word}

/-- No command writes an operand (R22, R23, R25). -/
theorem issue_sameOperands (h : issue w s = .next t) : SameOperands s t := by
  obtain ⟨e, he, _⟩ := issue_endAlike (s := s) (t := s) ⟨rfl, rfl, rfl, rfl, rfl, rfl⟩ w
  cases he.symm.trans h
  cases e <;> exact ⟨rfl, rfl, rfl, rfl, rfl, rfl⟩

theorem issue_again (h : issue w s = .next t) (es : List HostEvent) :
    issue w (t.putPending es) = .next (t.putPending es) := by
  have hs : SameOperands s (t.putPending es) := { issue_sameOperands h with }
  obtain ⟨e, he, he'⟩ := issue_endAlike hs w
  cases he.symm.trans h
  rw [he', e.leave_again]

/-- A host write that was answered leaves a state that the same write leaves as it is. -/
theorem writeReg_again {reg : Reg} (h : writeReg a w s reg = .next t) (es : List HostEvent) :
    writeReg a w (t.putPending es) reg = .next (t.putPending es) := by
  cases reg with
  | cmd => exact issue_again h es
  | aLen =>
    simp only [writeReg] at h
    split at h
    · nomatch h
    · next hw => cases h; exact if_neg hw
  | bLen =>
    simp only [writeReg] at h
    split at h
    · nomatch h
    · next hw => cases h; exact if_neg hw
  | aData k =>
    cases h
    exact congrArg (fun buf => Host.Outcome.next ((s.putA buf).putPending es)) (storeWord_storeWord s.a k w)
  | bData k =>
    cases h
    exact congrArg (fun buf => Host.Outcome.next ((s.putB buf).putPending es)) (storeWord_storeWord s.b k w)
  | _ => cases h; rfl

/-- A host write answers for one event: the rest of the queue stays. -/
theorem writeReg_pending {reg : Reg} (h : writeReg a w s reg = .next t) : t.pending = s.pending := by
  cases reg with
  | cmd =>
    obtain ⟨_, _, _, _, _, he⟩ | ⟨_, _, _, _, _, he⟩ | ⟨_, _, _, _, _, _, he⟩ := issue_outcome w s <;>
      (cases he.symm.trans h; rfl)
  | aLen | bLen =>
    simp only [writeReg] at h
    split at h
    · nomatch h
    · cases h; rfl
  | _ => cases h; rfl

end

end Sys2Proof.Machine
end

section
/-! The statements about the host's accesses (20_memory.md). -/

namespace Sys2Proof.Machine

/-- Settles O30, address by address: the register that stands there, and what a read or a write of it does. -/
theorem hostAccessesFollowTheMap : Obligations.HostAccessesFollowTheMap := by
  intro s rest hI
  refine ⟨fun a h => ⟨fun w hw => ?_, fun k buf hk => ?_, ?unmappedRead⟩,
    fun a w h => ⟨?cmd, ?illegalCmd, ?valIn, ?aLen, ?aLenAbove, ?bLen, ?bLenAbove, ?readOnly, fun k ha hk => ?aData,
      fun k hb hk => ?bData, ?unmappedWrite⟩⟩
  · obtain ⟨rfl, rfl⟩ | ⟨rfl, rfl⟩ | ⟨rfl, rfl⟩ | ⟨rfl, rfl⟩ | ⟨rfl, rfl⟩ | ⟨rfl, rfl⟩ | ⟨rfl, rfl⟩ | ⟨rfl, rfl⟩ |
      ⟨rfl, rfl⟩ | ⟨rfl, rfl⟩ | ⟨rfl, rfl⟩ := hw
    -- The eleven registers stand at fixed addresses.
    all_goals exact step_read h rfl
  · refine ⟨packWord buf k, fun j hj => wordCode_packWord buf k j hj, ?_⟩
    obtain ⟨ha, hk, rfl⟩ | ⟨hb, hk, rfl⟩ | ⟨hr, hk, rfl⟩ := hk
    · exact step_read (reg := .aData k) h (regAt_aWindow hI.cfg_wf ha hk)
    · exact step_read (reg := .bData k) h (regAt_bWindow hI.cfg_wf hb hk)
    · exact step_read (reg := .rData k) h (regAt_rWindow hI.cfg_wf hr hk)
  case unmappedRead => exact fun h10 hA hB hR => step_read_unmapped h (regAt_eq_none h10 hA hB hR)
  case cmd =>
    rintro rfl i hi
    exact (step_write_cmd h).trans (issue_of_ok hi _)
  case illegalCmd =>
    rintro rfl hi
    exact (step_write_cmd h).trans (issue_of_illegal hi _)
  case valIn =>
    rintro rfl
    exact step_write (reg := .valIn) h rfl
  case aLen =>
    rintro rfl hw
    exact (step_write (reg := .aLen) h rfl).trans (if_neg (not_lt.2 hw))
  case aLenAbove =>
    rintro rfl hw
    exact (step_write (reg := .aLen) h rfl).trans (if_pos hw)
  case bLen =>
    rintro rfl hw
    exact (step_write (reg := .bLen) h rfl).trans (if_neg (not_lt.2 hw))
  case bLenAbove =>
    rintro rfl hw
    exact (step_write (reg := .bLen) h rfl).trans (if_pos hw)
  case readOnly =>
    rintro (rfl | rfl | rfl | rfl | rfl | rfl | rfl | ⟨hlo, hhi⟩)
    · exact step_write (reg := .status) h rfl
    · exact step_write (reg := .errOffset) h rfl
    · exact step_write (reg := .rVal) h rfl
    · exact step_write (reg := .rLen) h rfl
    · exact step_write (reg := .cfg) h rfl
    · exact step_write (reg := .capN) h rfl
    · exact step_write (reg := .capP) h rfl
    · exact step_write h (regAt_rWindow (k := a.toNat - 0x30000) hI.cfg_wf (by omega) (by omega))
  case aData =>
    exact ⟨storeWord s.a k w, storeWord_length _ _ _, fun j hj hn => cell_storeWord_field w hj (hI.a_length ▸ hn),
      fun i hi => cell_storeWord_other w hi, step_write h (regAt_aWindow hI.cfg_wf ha hk)⟩
  case bData =>
    exact ⟨storeWord s.b k w, storeWord_length _ _ _, fun j hj hn => cell_storeWord_field w hj (hI.b_length ▸ hn),
      fun i hi => cell_storeWord_other w hi, step_write h (regAt_bWindow hI.cfg_wf hb hk)⟩
  case unmappedWrite => exact fun h10 hA hB hR => step_write_unmapped h (regAt_eq_none h10 hA hB hR)

/-- Settles O31: the fields of a packed word, the three windows by their addresses, and the example. -/
theorem dataWordPacksSixteenCells : Obligations.DataWordPacksSixteenCells := by
  refine ⟨fun buf k j hj => packWord_field buf hj, fun s a rest k hI h => ⟨?_, ?_, ?_⟩, by decide⟩
  · exact fun ha hk => step_read (reg := .aData k) h (regAt_aWindow hI.cfg_wf ha hk)
  · exact fun ha hk => step_read (reg := .bData k) h (regAt_bWindow hI.cfg_wf ha hk)
  · exact fun ha hk => step_read (reg := .rData k) h (regAt_rWindow hI.cfg_wf ha hk)

/-- Settles O32: a mapped address keeps its register, which reads the same after a read and takes the same word
again without a change. -/
theorem repeatedAccessHasTheSameEffect : Obligations.RepeatedAccessHasTheSameEffect := by
  rintro s s1 e rest hp hs
  refine ⟨?_, ?_⟩
  · rintro a rfl
    cases hr : regAt s.cfg a with
    | none => exact nomatch (step_read_unmapped hp hr).symm.trans hs
    | some reg =>
      cases (step_read hp hr).symm.trans hs
      refine ⟨readReg s reg, rfl, ?_⟩
      have hp1 : ((s.putPending (.read a :: rest)).logRead (readReg s reg)).pending = .read a :: rest := rfl
      rw [step_read hp1 hr, readReg_logRead, readReg_putPending]
      rfl
  · rintro a w rfl
    cases hr : regAt s.cfg a with
    | none => exact nomatch (step_write_unmapped hp hr).symm.trans hs
    | some reg =>
      have hw := (step_write hp hr).symm.trans hs
      have hr1 : regAt s1.cfg a = some reg := (step_cfg hs).symm ▸ hr
      exact (step_write (writeReg_pending hw) hr1).trans (writeReg_again hw rest)

end Sys2Proof.Machine
end

section
/-! Layer under the statements about the encoding (30_encoding.md section 1): a command word is its two fields, and
the decoder and the encoder are inverse to each other. -/

namespace Sys2Proof

section
variable {v w : Word} {i : Instr} {op : BitVec 4}

/-- A word is its fields `RSV` and `OP`, and nothing else (R72). -/
theorem eq_iff_fields : w = v ↔ rsvField w = rsvField v ∧ opField w = opField v := by
  simp only [← BitVec.toNat_inj, rsvField_toNat, opField_toNat]
  omega

@[simp] theorem rsvField_encode (i : Instr) : rsvField (encode i) = 0 := by cases i <;> rfl

theorem opcodeInstr_eq_some : opcodeInstr op = some i ↔ op = opField (encode i) := by
  revert op; cases i <;> decide

theorem opcodeInstr_isSome : (opcodeInstr op).isSome = true ↔ op ≠ 0#4 ∧ op.toNat ≤ 10 := by
  revert op; decide

/-- The decoder is the opcode map on the words with `RSV = 0` (R74). -/
theorem decode_eq_ok : decode w = .ok i ↔ rsvField w = 0 ∧ opcodeInstr (opField w) = some i := by
  unfold decode
  split
  case isTrue h => exact iff_of_false nofun fun ⟨h0, _⟩ => h h0
  case isFalse h => cases hop : opcodeInstr (opField w) <;> simp [not_not.1 h]

/-- Each command has one word, and each word at most one command (R73). -/
theorem decode_eq_ok_iff_eq_encode : decode w = .ok i ↔ w = encode i := by
  rw [decode_eq_ok, opcodeInstr_eq_some, eq_iff_fields, rsvField_encode]

@[simp] theorem decode_encode (i : Instr) : decode (encode i) = .ok i := decode_eq_ok_iff_eq_encode.2 rfl

theorem exists_decode_iff_toNat : (∃ i, decode w = .ok i) ↔ 1 ≤ w.toNat ∧ w.toNat ≤ 10 := by
  obtain ⟨h1, h10, hok⟩ | ⟨hout, e, he⟩ := decode_cases w
  · exact iff_of_true hok ⟨h1, h10⟩
  · refine iff_of_false ?_ (by omega)
    rintro ⟨i, hi⟩
    exact nomatch he.symm.trans hi

/-- The legal words by their fields (R74). -/
theorem exists_decode_iff_fields :
    (∃ i, decode w = .ok i) ↔ rsvField w = 0#28 ∧ opField w ≠ 0#4 ∧ (opField w).toNat ≤ 10 := by
  simp only [decode_eq_ok, exists_and_left, ← Option.isSome_iff_exists, opcodeInstr_isSome, BitVec.ofNat_eq_ofNat]

/-- The decoder of a table row reads the row's bits as the word. -/
theorem decodeTableWord_eq_some {nbits n : Nat} :
    decodeTableWord nbits n = some i ↔ decode (tableWord nbits n) = .ok i := by
  unfold decodeTableWord
  cases decode (tableWord nbits n) <;> simp

theorem tableWord_toNat (n : Nat) : (tableWord 32 n).toNat = n % 2 ^ 32 := by
  rw [tableWord, BitVec.toNat_ofNat, Nat.mod_mod]

/-- A trit's code is its two's-complement value (R70). -/
theorem tritCode_toInt (t : Trit) : (tritCode t).toInt = Machine.tritInt t := by cases t <;> rfl

end

end Sys2Proof
end

section
/-! The statements about the encoding (30_encoding.md section 1). -/

namespace Sys2Proof.Machine

/-- Settles O2: the decoder inverts the encoder, also behind the table row's word. -/
theorem decodeIsExactlyTheOpcodeMap : Obligations.DecodeIsExactlyTheOpcodeMap := by
  refine ⟨fun _ _ => decode_eq_ok_iff_eq_encode, fun _ => exists_decode_iff_toNat, fun n i => ?_⟩
  rw [decodeTableWord_eq_some, decode_eq_ok_iff_eq_encode, ← BitVec.toNat_inj, tableWord_toNat]

/-- Settles O3: R74's condition on the fields is the failure of the decoder. -/
theorem illegalWordRaisesIllegalCommand : Obligations.IllegalWordRaisesIllegalCommand := by
  intro s w rest hp
  have hlegal : (∃ i, decode w = .ok i) ↔
      ¬ (rsvField w ≠ 0#28 ∨ opField w = 0#4 ∨ 11 ≤ (opField w).toNat) := by
    rw [exists_decode_iff_fields, not_or, not_or, not_not, not_le, Nat.lt_succ_iff]
  refine ⟨fun hbad => ?_, hlegal.2⟩
  have hi : ∀ i, decode w ≠ .ok i := fun i hd => hlegal.1 ⟨i, hd⟩ hbad
  exact (step_write_cmd hp).trans (issue_of_illegal hi _)

/-- Settles O1: the ten words are the encoder's, and the reserved ones fail on a field. -/
theorem commandWordsDecodeAsTabled : Obligations.CommandWordsDecodeAsTabled :=
  ⟨decode_encode .enc4, decode_encode .dec4, decode_encode .pad, decode_encode .unpad, decode_encode .encodeCore,
    decode_encode .decodeCore, decode_encode .frame, decode_encode .unframe, decode_encode .capply,
    decode_encode .cremove, by decide, by decide, decode_of_ge (by decide), decode_of_ge (by decide)⟩

/-- Settles O7: the table of R70, and its inverse on the codes that are valid. -/
theorem tritCodesAreTwosComplement : Obligations.TritCodesAreTwosComplement := by
  refine ⟨rfl, rfl, rfl, by decide, fun t => ⟨codeTrit_tritCode t, tritCode_toInt t⟩,
    fun _ _ => codeTrit_eq_some, fun c hc => ?_⟩
  have hvalid : (codeTrit c).isSome = true := codeValid_eq_true.2 hc
  exact Option.isSome_iff_exists.1 hvalid

end Sys2Proof.Machine
end

section
/-! Layer under the statements about the conversion commands (40_ternary_codec.md sections 2 and 3): the digits of a
core value, the core value of four digits, and the `RANGE` check failing. -/

namespace Sys2Proof.Machine

/-- Each round of R104's loop splits off one digit exactly, and `k` rounds exhaust every `n` within
`(3^k - 1) / 2` of 0, so the digits add up to `n`. -/
theorem balValueFrom_balDigitsFrom (j k : Nat) {n : Int} (hlo : -3 ^ k < 2 * n) (hhi : 2 * n < 3 ^ k) :
    balValueFrom j (balDigitsFrom k n) = n * 3 ^ j := by
  induction k generalizing j n with
  | zero =>
    obtain rfl : n = 0 := by omega
    simp [balDigitsFrom, balValueFrom]
  | succ k ih =>
    have hd := balDigit_bounds n
    have hexact : n = balDigit n + 3 * ((n - balDigit n) / 3) := by unfold balDigit; omega
    obtain ⟨m, hodd⟩ : Odd ((3 : Int) ^ k) := Odd.pow (by decide)
    rw [pow_succ] at hlo hhi
    rw [balDigitsFrom, balValueFrom, tritInt_intTrit_balDigit, ih (j + 1) (by omega) (by omega), pow_succ]
    linear_combination -(3 ^ j) * hexact

/-- `bal_value` undoes `bal_digits` on `[-40, 40]` (R105). -/
theorem balValue_balDigits {n : Int} (hlo : -40 ≤ n) (hhi : n ≤ 40) : balValue (balDigits n) = n := by
  rw [balValue, balDigits, balValueFrom_balDigitsFrom 0 4 (by omega) (by omega), pow_zero, mul_one]

/-- The four digits that `ENC4` and `ENCODE_CORE` write for a core value (R106, R133). -/
theorem balDigits_of_core {v : Int} (h0 : 0 ≤ v) (h80 : v ≤ 80) : ∃ d0 d1 d2 d3 : Trit,
    tritInt d0 + 3 * tritInt d1 + 9 * tritInt d2 + 27 * tritInt d3 = v - 40 ∧
    balDigits (v - 40) = [d0, d1, d2, d3] := by
  obtain ⟨d0, d1, d2, d3, hd⟩ := four_trits (balDigits_length (v - 40))
  have hv : balValue (balDigits (v - 40)) = v - 40 := balValue_balDigits (by omega) (by omega)
  rw [hd, balValue_four] at hv
  exact ⟨d0, d1, d2, d3, hv, hd⟩

/-- `complete_vec` as an equation of whole states (R205). -/
theorem completeVec_eq_completed (ts : List Trit) (s : State) : completeVec ts s =
    .next (completed { s with r := writeTrits s.r ts, rLen := BitVec.ofNat 32 ts.length }) := rfl

/-- `complete_val` as an equation of whole states (R205). -/
theorem completeVal_eq_completed (v : Int) (s : State) :
    completeVal v s = .next (completed { s with rVal := BitVec.ofNat 32 v.toNat }) := rfl

/-- The core value that `DEC4` and `DECODE_CORE` write for four trits: it is in `[0, 80]`, so the word holds it
whole (R107, R134). -/
theorem completeVal_core (d0 d1 d2 d3 : Trit) (s : State) : ∃ v : Word,
    (v.toNat : Int) = tritInt d0 + 3 * tritInt d1 + 9 * tritInt d2 + 27 * tritInt d3 + 40 ∧ v.toNat ≤ 80 ∧
    completeVal (balValue [d0, d1, d2, d3] + 40) s = .next (completed { s with rVal := v }) := by
  obtain ⟨h0, h80⟩ := balValue_core_bounds (ts := [d0, d1, d2, d3]) rfl
  have hw : (BitVec.ofNat 32 (balValue [d0, d1, d2, d3] + 40).toNat).toNat =
      (balValue [d0, d1, d2, d3] + 40).toNat := by
    rw [BitVec.toNat_ofNat, Nat.mod_eq_of_lt (by omega)]
  refine ⟨_, ?_, ?_, completeVal_eq_completed _ s⟩
  · rw [hw, Int.toNat_of_nonneg h0, balValue_four]
  · omega

/-- Outside `[0, 80]` the operand check of `ENC4` and `ENCODE_CORE` raises `RANGE` (R106, R133). -/
theorem withCoreValue_of_out_of_range {s : State} (h : s.valIn.toInt < 0 ∨ 80 < s.valIn.toInt)
    (k : Int → Result) : withCoreValue s k = .next (failed s 2 false 0) := by
  obtain ⟨_, he⟩ | ⟨_, _, _⟩ := withCoreValue_cases s k
  · exact he
  · omega

end Sys2Proof.Machine
end

section
/-! The statements about the conversion commands (40_ternary_codec.md section 3). -/

namespace Sys2Proof.Machine

/-- Settles O9: the digits of R104 add up to `VAL_IN - 40`, and the check of `VAL_IN` is the only one. -/
theorem enc4WritesBalancedDigits : Obligations.Enc4WritesBalancedDigits := by
  refine ⟨decode_encode .enc4, fun s => ⟨fun h0 h80 => ?_, fun hout =>
    withCoreValue_of_out_of_range hout fun v => completeVec (balDigits (v - 40)) s⟩⟩
  obtain ⟨d0, d1, d2, d3, hsum, hd⟩ := balDigits_of_core h0 h80
  refine ⟨d0, d1, d2, d3, hsum, ?_⟩
  rw [exec_enc4_of_range h0 h80, hd]
  exact completeVec_eq_completed _ s

/-- Settles O10: the three cases of the fixed-length operand check, and the digits' value in the last. -/
theorem dec4WritesTheCoreValue : Obligations.Dec4WritesTheCoreValue := by
  refine ⟨decode_encode .dec4, fun s => ⟨fun hlen => withUnit_of_length hlen _,
    fun hlen p hp => withUnit_of_reserved hlen hp _, fun d0 d1 d2 d3 hA => ?_⟩⟩
  rw [exec_dec4_of_holds hA rfl]
  exact completeVal_core d0 d1 d2 d3 s

end Sys2Proof.Machine
end

section
/-! Layer under the statements about the tribble commands (41_tribble_padder.md): the three ends of the
pad check that `UNPAD` and `DECODE_CORE` share. -/

namespace Sys2Proof.Machine

/-- On six trits the tribble check of `UNPAD` and `DECODE_CORE` looks at position 0 before position 5, and goes on
with the four between them (R132, R134). -/
theorem withTribble_of_six {s : State} {x c0 c1 c2 c3 y : Trit} (hA : HoldsA s [x, c0, c1, c2, c3, y])
    (k : List Trit → Result) :
    (x ≠ s.cfg.padTrit → withTribble s k = .next (failed s 4 false 0)) ∧
    (x = s.cfg.padTrit → y ≠ s.cfg.padTrit → withTribble s k = .next (failed s 4 false 5)) ∧
    (x = s.cfg.padTrit → y = s.cfg.padTrit → withTribble s k = k [c0, c1, c2, c3]) := by
  rw [withTribble_of_holds (core := [c0, c1, c2, c3]) rfl hA]
  refine ⟨fun hx => ?_, fun hx hy => ?_, fun hx hy => ?_⟩
  · rw [if_pos hx, failed_eq]
  · rw [if_neg (not_not.2 hx), if_pos hy, failed_eq]
  · rw [if_neg (not_not.2 hx), if_neg (not_not.2 hy)]

end Sys2Proof.Machine
end

section
/-! The statements about the tribble commands (41_tribble_padder.md). -/

namespace Sys2Proof.Machine

/-- Settles O11: the three cases of the fixed-length operand check; the four trits are padded unchecked. -/
theorem padAddsThePadTrits : Obligations.PadAddsThePadTrits := by
  refine ⟨decode_encode .pad, fun s => ⟨fun hlen => withUnit_of_length hlen _,
    fun hlen p hp => withUnit_of_reserved hlen hp _, fun c0 c1 c2 c3 hA => ?_⟩⟩
  rw [exec_pad_of_holds hA rfl]
  exact completeVec_eq_completed _ s

/-- Settles O12: the operand check, then the pads in their order; the interior is written as it is. -/
theorem unpadChecksAndStripsThePadTrits : Obligations.UnpadChecksAndStripsThePadTrits := by
  refine ⟨decode_encode .unpad, fun s => ⟨fun hlen => withUnit_of_length hlen _,
    fun hlen p hp => withUnit_of_reserved hlen hp _, fun x c0 c1 c2 c3 y hA => ?_⟩⟩
  obtain ⟨hfirst, hlast, hpads⟩ := withTribble_of_six hA fun core => completeVec core s
  exact ⟨hfirst, hlast, fun hx hy => (hpads hx hy).trans (completeVec_eq_completed _ s)⟩

/-- Settles O13: the digits of R104 add up to `VAL_IN - 40`, and the check of `VAL_IN` is the only one. -/
theorem encodeCoreWritesTheTribble : Obligations.EncodeCoreWritesTheTribble := by
  refine ⟨decode_encode .encodeCore, fun s => ⟨fun h0 h80 => ?_, fun hout =>
    withCoreValue_of_out_of_range hout fun v => completeVec (padTrits s.cfg (balDigits (v - 40))) s⟩⟩
  obtain ⟨d0, d1, d2, d3, hsum, hd⟩ := balDigits_of_core h0 h80
  refine ⟨d0, d1, d2, d3, hsum, ?_⟩
  rw [exec_encodeCore_of_range h0 h80, hd]
  exact completeVec_eq_completed _ s

/-- Settles O14: the checks of `UNPAD`, then the interior digits' value, which is a core value. -/
theorem decodeCoreChecksThePadsAndWritesTheValue : Obligations.DecodeCoreChecksThePadsAndWritesTheValue := by
  refine ⟨decode_encode .decodeCore, fun s => ⟨fun hlen => withUnit_of_length hlen _,
    fun hlen p hp => withUnit_of_reserved hlen hp _, fun x d0 d1 d2 d3 y hA => ?_⟩⟩
  obtain ⟨hfirst, hlast, hpads⟩ := withTribble_of_six hA fun core => completeVal (balValue core + 40) s
  refine ⟨hfirst, hlast, fun hx hy => ?_⟩
  obtain ⟨v, hval, hle, hend⟩ := completeVal_core d0 d1 d2 d3 s
  exact ⟨v, hval, hle, (hpads hx hy).trans hend⟩

end Sys2Proof.Machine
end

section
/-! The statements about the frame commands (42_frame_wrapper.md). -/

namespace Sys2Proof.Machine

/-- Settles O15: the three cases of the fixed-length operand check; the six trits are framed unchecked. -/
theorem frameAddsTheFrameTrits : Obligations.FrameAddsTheFrameTrits := by
  refine ⟨decode_encode .frame, fun s => ⟨fun hlen => withUnit_of_length hlen _,
    fun hlen p hp => withUnit_of_reserved hlen hp _, fun t0 t1 t2 t3 t4 t5 hA => ?_⟩⟩
  rw [exec_frame_of_holds hA rfl]
  exact completeVec_eq_completed _ s

/-- Settles O16: the operand check, then the frame trits, position 0 before position 7; the interior is written as
it is. -/
theorem unframeChecksAndStripsTheFrameTrits : Obligations.UnframeChecksAndStripsTheFrameTrits := by
  refine ⟨decode_encode .unframe, fun s => ⟨fun hlen => withUnit_of_length hlen _,
    fun hlen p hp => withUnit_of_reserved hlen hp _, fun x t0 t1 t2 t3 t4 t5 y hA => ?_⟩⟩
  have hends := execUnframe_of_holds (mid := [t0, t1, t2, t3, t4, t5]) rfl hA
  refine ⟨fun hx => hends.trans ?_, fun hx hy => hends.trans ?_, fun hx hy => hends.trans ?_⟩
  · rw [if_pos hx, failed_eq]
  · rw [if_neg (not_not.2 hx), if_pos hy, failed_eq]
  · rw [if_neg (not_not.2 hx), if_neg (not_not.2 hy)]
    exact completeVec_eq_completed _ s

end Sys2Proof.Machine
end

section
/-! Layer under the statements about the carrier commands (43_carrier.md): one lane of an overlay, each error of
their operand check, and the end on a stream and a pattern. -/

namespace Sys2Proof.Machine

section
variable {x p x' p' : List Trit} {i : Nat}

/-- One lane of an overlay or a removal: the stream's trit with the pattern's at `i mod |p|` (R180, R181). -/
theorem overlayWith_getElem?_eq_some (f : Trit → Trit → Trit) {a b : Trit} (ha : x[i]? = some a)
    (hb : p[i % p.length]? = some b) : (overlayWith f x p)[i]? = some (f a b) := by
  rw [overlayWith_getElem?, ha, patternTrit_eq hb, Option.map_some]

/-- A lane depends on its own two trits only (R185). -/
theorem overlayWith_getElem?_congr (f : Trit → Trit → Trit) (hx : x[i]? = x'[i]?)
    (hp : p[i % p.length]? = p'[i % p'.length]?) : (overlayWith f x p)[i]? = (overlayWith f x' p')[i]? := by
  have hpat : patternTrit p i = patternTrit p' i := congrArg (·.getD .zero) hp
  rw [overlayWith_getElem?, overlayWith_getElem?, hx, hpat]

end

section
variable {s : State} {i : Nat}

/-- The first check: an empty pattern is reported whatever `A` holds (R182). -/
theorem withCarrier_of_empty (h0 : s.bLen.toNat = 0) (k : List Trit → List Trit → Result) :
    withCarrier s k = .next (failed s 6 true 0) := by
  rw [withCarrier, if_pos h0]; rfl

/-- The second check: the stream's symbols, whatever the pattern holds (R182). -/
theorem withCarrier_of_reserved_stream (h0 : s.bLen.toNat ≠ 0) (hi : FirstReserved s.a s.aLen.toNat i)
    (k : List Trit → List Trit → Result) :
    withCarrier s k = .next (failed s 1 false (BitVec.ofNat 32 i)) := by
  rw [withCarrier, if_neg h0, withTrits_of_reserved hi]; rfl

/-- The third check: all the pattern's symbols, also those beyond the stream's length (R182). -/
theorem withCarrier_of_reserved_pattern (h0 : s.bLen.toNat ≠ 0)
    (ha : ∀ j, j < s.aLen.toNat → cell s.a j ≠ 0b10#2) (hi : FirstReserved s.b s.bLen.toNat i)
    (k : List Trit → List Trit → Result) :
    withCarrier s k = .next (failed s 1 true (BitVec.ofNat 32 i)) := by
  obtain ⟨x, hx⟩ := holds_of_firstInvalid (firstInvalid_eq_none.2 ha)
  rw [withCarrier, if_neg h0, withTrits_of_holds hx, withTrits_of_reserved hi]; rfl

/-- A result as long as the stream leaves `A_LEN` in `R_LEN` (R24, R182). -/
theorem completeVec_of_stream_length {x o : List Trit} (hA : HoldsA s x) (ho : o.length = x.length) :
    completeVec o s = .next (completed { s with r := writeTrits s.r o, rLen := s.aLen }) := by
  have hlen : BitVec.ofNat 32 o.length = s.aLen := by
    rw [ho, ← hA.length_eq, BitVec.ofNat_toNat, BitVec.setWidth_eq]
  rw [completeVec_eq_completed, hlen]

/-- The end that `CAPPLY` and `CREMOVE` share: the result lane by lane, and the whole next state (R182, R183). -/
theorem completeVec_overlayWith (f : Trit → Trit → Trit) {x : List Trit} (hA : HoldsA s x) (p : List Trit) :
    ∃ o : List Trit, o.length = x.length ∧
      (∀ (i : Nat) (a b : Trit), x[i]? = some a → p[i % p.length]? = some b → o[i]? = some (f a b)) ∧
      completeVec (overlayWith f x p) s =
        .next (completed { s with r := writeTrits s.r o, rLen := s.aLen }) :=
  ⟨overlayWith f x p, overlayWith_length f x p, fun _ _ _ => overlayWith_getElem?_eq_some f,
    completeVec_of_stream_length hA (overlayWith_length f x p)⟩

end

end Sys2Proof.Machine
end

section
/-! The statements about the carrier commands (43_carrier.md). -/

namespace Sys2Proof.Machine

/-- Settles O8: both functions are `overlayWith`, which is one lane at each position. -/
theorem carrierIsLanewise : Obligations.CarrierIsLanewise := by
  refine ⟨fun x p => ⟨overlay_length x p, unoverlay_length x p⟩, fun x p i a b ha hb => ⟨?_, ?_⟩,
    fun x p x' p' i hx _ _ hp => ⟨?_, ?_⟩⟩
  · exact overlayWith_getElem?_eq_some addMod3 ha hb
  · exact overlayWith_getElem?_eq_some subMod3 ha hb
  · exact overlayWith_getElem?_congr addMod3 hx hp
  · exact overlayWith_getElem?_congr subMod3 hx hp

/-- Settles O17: the three checks in their order, then the overlay lane by lane. -/
theorem capplyOverlaysThePattern : Obligations.CapplyOverlaysThePattern := by
  refine ⟨decode_encode .capply, fun s => ⟨fun h0 => withCarrier_of_empty h0 _,
    fun h0 i hi => withCarrier_of_reserved_stream h0 hi _,
    fun h0 ha i hi => withCarrier_of_reserved_pattern h0 ha hi _, fun x p hA hB hp => ?_⟩⟩
  rw [exec_capply_of_holds hA hB hp]
  exact completeVec_overlayWith addMod3 hA p

/-- Settles O18: the checks of `CAPPLY`, then the removal lane by lane. -/
theorem cremoveRemovesThePattern : Obligations.CremoveRemovesThePattern := by
  refine ⟨decode_encode .cremove, fun s => ⟨fun h0 => withCarrier_of_empty h0 _,
    fun h0 i hi => withCarrier_of_reserved_stream h0 hi _,
    fun h0 ha i hi => withCarrier_of_reserved_pattern h0 ha hi _, fun x p hA hB hp => ?_⟩⟩
  rw [exec_cremove_of_holds hA hB hp]
  exact completeVec_overlayWith subMod3 hA p

end Sys2Proof.Machine
end

section
/-! Layer under the statements about the reports (60_exceptions.md): the first check that fails in the order of R202,
as a function of the operands, and the row of R201 and R203 that a write of `CMD` leaves. -/

namespace Sys2Proof.Machine

/-! ## The first check that fails (R202) -/

/-- What a command leaves in `CODE`, `ERR_OPERAND` and `ERR_OFFSET`. -/
structure Report where
  code    : BitVec 4
  operand : Bool
  offset  : Word

/-- Step 2 of R202, with the location R203 gives: `A_LEN` for `FRAME_LENGTH`, operand `B` for `EMPTY_PATTERN`. -/
def shapeFailure (s : State) (i : Instr) : Option Report :=
  if shapeCode s i = 0 then none
  else some ⟨shapeCode s i, decide (shapeCode s i = 6), if shapeCode s i = 3 then s.aLen else 0⟩

/-- Steps 3 and 4 of R202: the lowest reserved code of one operand. -/
def symbolFailure (buf : TritBuf) (n : Nat) (opnd : Bool) : Option Report :=
  (firstInvalid buf n).map fun p => ⟨1, opnd, BitVec.ofNat 32 p⟩

/-- Step 5 of R202: the boundary trit at position 0, then the one at the last position. -/
def boundaryFailure (s : State) (i : Instr) : Option Report :=
  (boundaryOf s i).bind fun (c, b, last) =>
    if cell s.a 0 ≠ tritCode b then some ⟨c, false, 0⟩
    else if cell s.a last ≠ tritCode b then some ⟨c, false, BitVec.ofNat 32 last⟩
    else none

/-- The first check of command `i` that fails in state `s`, in the order of R202. -/
def firstFailure (s : State) (i : Instr) : Option Report :=
  (shapeFailure s i).or <| (symbolFailure s.a (cellsOfA s i) false).or <|
    (symbolFailure s.b (cellsOfB s i) true).or <| boundaryFailure s i

section
variable {s : State} {i : Instr}

theorem firstFailure_of_shape (h : shapeCode s i ≠ 0) : firstFailure s i =
    some ⟨shapeCode s i, decide (shapeCode s i = 6), if shapeCode s i = 3 then s.aLen else 0⟩ := by
  rw [firstFailure, shapeFailure, if_neg h, Option.some_or]

theorem symbolFailure_eq_none {buf : TritBuf} {n : Nat} {opnd : Bool} :
    symbolFailure buf n opnd = none ↔ ∀ p, p < n → cell buf p ≠ 0b10#2 :=
  Option.map_eq_none_iff.trans firstInvalid_eq_none

theorem symbolFailure_of_reserved {buf : TritBuf} {n p : Nat} (hp : FirstReserved buf n p) (opnd : Bool) :
    symbolFailure buf n opnd = some ⟨1, opnd, BitVec.ofNat 32 p⟩ := by
  rw [symbolFailure, firstInvalid_eq_some.2 hp, Option.map_some]

section
variable (h0 : shapeCode s i = 0)
include h0

theorem firstFailure_of_reserved_a {p : Nat} (hp : FirstReserved s.a (cellsOfA s i) p) :
    firstFailure s i = some ⟨1, false, BitVec.ofNat 32 p⟩ := by
  rw [firstFailure, shapeFailure, if_pos h0, Option.none_or, symbolFailure_of_reserved hp, Option.some_or]

variable (ha : ∀ p, p < cellsOfA s i → cell s.a p ≠ 0b10#2)
include ha

theorem firstFailure_of_reserved_b {p : Nat} (hp : FirstReserved s.b (cellsOfB s i) p) :
    firstFailure s i = some ⟨1, true, BitVec.ofNat 32 p⟩ := by
  rw [firstFailure, shapeFailure, if_pos h0, Option.none_or, symbolFailure_eq_none.2 ha, Option.none_or,
    symbolFailure_of_reserved hp, Option.some_or]

theorem firstFailure_of_symbols (hb : ∀ p, p < cellsOfB s i → cell s.b p ≠ 0b10#2) :
    firstFailure s i = boundaryFailure s i := by
  rw [firstFailure, shapeFailure, if_pos h0, Option.none_or, symbolFailure_eq_none.2 ha, Option.none_or,
    symbolFailure_eq_none.2 hb, Option.none_or]

end

theorem boundaryFailure_of_none (h : boundaryOf s i = none) : boundaryFailure s i = none := by
  rw [boundaryFailure, h, Option.bind_none]

theorem boundaryFailure_of_some {c : BitVec 4} {b : Trit} {last : Nat} (h : boundaryOf s i = some (c, b, last)) :
    boundaryFailure s i =
      if cell s.a 0 ≠ tritCode b then some ⟨c, false, 0⟩
      else if cell s.a last ≠ tritCode b then some ⟨c, false, BitVec.ofNat 32 last⟩
      else none := by
  rw [boundaryFailure, h, Option.bind_some]

end

/-! ## Every command reports it -/

/-- The report a state holds. -/
def State.lastReport (t : State) : Report := ⟨t.code, t.errOperand, t.errOffset⟩

/-- The command ended, and its report is the failure, or that of success (R205) if there is none. -/
def Reports (x : Result) (f : Option Report) : Prop :=
  ∃ t, x = .next t ∧ t.lastReport = f.getD ⟨0, false, 0⟩

section
variable {s : State} {i : Instr}

theorem reports_error {x : Result} {c : BitVec 4} {o : Bool} {f : Word} (h : x = .next (s.report false c o f)) :
    Reports x (some ⟨c, o, f⟩) := ⟨_, h, rfl⟩

/-- A shape check that is one condition reports its code where the condition holds. -/
theorem shape_reports {P : Prop} [Decidable P] {c : BitVec 4} {x : Result}
    (hs : shapeCode s i = if P then c else 0) (hP : P) (hc : c ≠ 0)
    (he : x = .next (s.report false c (decide (c = 6)) (if c = 3 then s.aLen else 0))) :
    Reports x (firstFailure s i) := by
  rw [if_pos hP] at hs
  rw [firstFailure_of_shape (hs ▸ hc), hs]
  exact reports_error he

theorem completeVec_reports (ts : List Trit) : Reports (completeVec ts s) none := ⟨_, completeVec_eq ts s, rfl⟩

theorem completeVal_reports (v : Int) : Reports (completeVal v s) none := ⟨_, completeVal_eq v s, rfl⟩

/-- No cell of an operand that holds a sequence has the reserved code. -/
theorem Holds.ne_reserved {buf : TritBuf} {len : Word} {ts : List Trit} (h : Holds buf len ts) :
    ∀ p, p < len.toNat → cell buf p ≠ 0b10#2 := firstInvalid_eq_none.1 h.firstInvalid

/-- A trit of a held sequence, by the cell it stands in. -/
theorem Holds.getElem?_eq_some {buf : TritBuf} {len : Word} {ts : List Trit} (h : Holds buf len ts) {j : Nat}
    (hj : j < ts.length) {b : Trit} : ts[j]? = some b ↔ cell buf j = tritCode b := by
  rw [h.cells j hj, tritCode_inj, List.getElem?_eq_getElem hj, Option.some.injEq]

theorem withCoreValue_reports {k : Int → Result}
    (hs : shapeCode s i = if s.valIn.toInt < 0 ∨ 80 < s.valIn.toInt then 2 else 0)
    (ha : cellsOfA s i = 0) (hb : cellsOfB s i = 0) (hk : ∀ v, Reports (k v) (boundaryFailure s i)) :
    Reports (withCoreValue s k) (firstFailure s i) := by
  obtain ⟨hv, he⟩ | ⟨_, _, he⟩ := withCoreValue_cases s k
  · exact shape_reports hs hv (by decide) he
  · rw [if_neg (by omega)] at hs
    rw [firstFailure_of_symbols hs (by simp [ha]) (by simp [hb]), he]
    exact hk _

theorem withUnit_reports {n : Nat} {k : List Trit → Result}
    (hs : shapeCode s i = if s.aLen.toNat ≠ n then 3 else 0) (ha : cellsOfA s i = n) (hb : cellsOfB s i = 0)
    (hk : ∀ ts, ts.length = n → HoldsA s ts → Reports (k ts) (boundaryFailure s i)) :
    Reports (withUnit n s k) (firstFailure s i) := by
  obtain ⟨hn, he⟩ | ⟨hn, p, hp, he⟩ | ⟨ts, hl, hts, he⟩ := withUnit_cases n s k
  · exact shape_reports hs hn (by decide) he
  · rw [if_neg (not_not.2 hn)] at hs
    rw [firstFailure_of_reserved_a hs (ha ▸ hp)]
    exact reports_error he
  · have hn : s.aLen.toNat = n := hts.length_eq.trans hl
    rw [if_neg (not_not.2 hn)] at hs
    rw [firstFailure_of_symbols hs (by rw [ha, ← hn]; exact hts.ne_reserved) (by simp [hb]), he]
    exact hk ts hl hts

theorem withBoundary_reports {e : ErrCode} {b : Trit} {last : Nat} {ts : List Trit} {k : Unit → Result}
    (hb : boundaryOf s i = some (errNumber e, b, last)) (hts : HoldsA s ts) (hlast : last < ts.length)
    (hk : Reports (k ()) none) : Reports (withBoundary e b last ts s k) (boundaryFailure s i) := by
  have h0 : ts[0]? = some b ↔ cell s.a 0 = tritCode b := hts.getElem?_eq_some (by omega)
  have hl : ts[last]? = some b ↔ cell s.a last = tritCode b := hts.getElem?_eq_some hlast
  rw [boundaryFailure_of_some hb]
  obtain ⟨hne, he⟩ | ⟨heq, hne, he⟩ | ⟨heq, heql, he⟩ := withBoundary_cases e b last ts s k
  · rw [if_pos (h0.not.1 hne)]
    exact reports_error he
  · rw [if_neg (not_not.2 (h0.1 heq)), if_pos (hl.not.1 hne)]
    exact reports_error he
  · rw [if_neg (not_not.2 (h0.1 heq)), if_neg (not_not.2 (hl.1 heql)), he]
    exact hk

theorem withTribble_reports {k : List Trit → Result} (hs : shapeCode s i = if s.aLen.toNat ≠ 6 then 3 else 0)
    (ha : cellsOfA s i = 6) (hb : cellsOfB s i = 0) (hbd : boundaryOf s i = some (4, s.cfg.padTrit, 5))
    (hk : ∀ core, Reports (k core) none) : Reports (withTribble s k) (firstFailure s i) :=
  withUnit_reports hs ha hb fun _ hl hts =>
    withBoundary_reports (e := .paddingMismatch) hbd hts (by omega) (hk _)

theorem withCarrier_reports {k : List Trit → List Trit → Result}
    (hs : shapeCode s i = if s.bLen.toNat = 0 then 6 else 0) (ha : cellsOfA s i = s.aLen.toNat)
    (hb : cellsOfB s i = s.bLen.toNat) (hk : ∀ x p, Reports (k x p) (boundaryFailure s i)) :
    Reports (withCarrier s k) (firstFailure s i) := by
  obtain ⟨h0, he⟩ | ⟨h0, j, hj, he⟩ | ⟨h0, x, hx, j, hj, he⟩ | ⟨x, p, hx, hp, hne, he⟩ := withCarrier_cases s k
  · exact shape_reports hs h0 (by decide) he
  · rw [if_neg h0] at hs
    rw [firstFailure_of_reserved_a hs (ha ▸ hj)]
    exact reports_error he
  · rw [if_neg h0] at hs
    rw [firstFailure_of_reserved_b hs (ha ▸ hx.ne_reserved) (hb ▸ hj)]
    exact reports_error he
  · have h0 : s.bLen.toNat ≠ 0 := by rw [hp.length_eq]; simpa using hne
    rw [if_neg h0] at hs
    rw [firstFailure_of_symbols hs (ha ▸ hx.ne_reserved) (hb ▸ hp.ne_reserved), he]
    exact hk x p

end

/-- The checks read neither the host's queue nor `CMD`. -/
@[simp] theorem firstFailure_putPending (s : State) (es : List HostEvent) (i : Instr) :
    firstFailure (s.putPending es) i = firstFailure s i := rfl

@[simp] theorem firstFailure_putCmd (s : State) (w : Word) (i : Instr) :
    firstFailure (s.putCmd w) i = firstFailure s i := rfl

/-- Every command reports the first of its checks that fails (R202). -/
theorem exec_reports (i : Instr) (s : State) : Reports (exec i s) (firstFailure s i) := by
  cases i with
  | enc4 => exact withCoreValue_reports (i := .enc4) rfl rfl rfl fun _ => completeVec_reports _
  | dec4 => exact withUnit_reports rfl rfl rfl fun _ _ _ => completeVal_reports _
  | pad => exact withUnit_reports rfl rfl rfl fun _ _ _ => completeVec_reports _
  | unpad => exact withTribble_reports rfl rfl rfl rfl fun _ => completeVec_reports _
  | encodeCore => exact withCoreValue_reports (i := .encodeCore) rfl rfl rfl fun _ => completeVec_reports _
  | decodeCore => exact withTribble_reports rfl rfl rfl rfl fun _ => completeVal_reports _
  | frame => exact withUnit_reports rfl rfl rfl fun _ _ _ => completeVec_reports _
  | unframe =>
    exact withUnit_reports rfl rfl rfl fun _ hl hts =>
      withBoundary_reports (e := .syncLoss) rfl hts (by omega) (completeVec_reports _)
  | capply => exact withCarrier_reports rfl rfl rfl fun _ _ => completeVec_reports _
  | cremove => exact withCarrier_reports rfl rfl rfl fun _ _ => completeVec_reports _

/-! ## The rows of R201 -/

/-- The rows of R201, each with its cause, its commands and the location that R203 gives: what a write of `w` to `CMD`
leaves in `CODE`, `ERR_OPERAND` and `ERR_OFFSET` when the operands are those of `s`. -/
inductive Explained (s : State) (w : Word) : BitVec 4 → Bool → Word → Prop where
  | ok {i : Instr} (hd : decode w = .ok i) : Explained s w 0 false 0
  | symbolA {i : Instr} {f : Word} (hd : decode w = .ok i) (hlt : f.toNat < cellsOfA s i)
      (hcell : cell s.a f.toNat = 0b10#2) : Explained s w 1 false f
  | symbolB {i : Instr} {f : Word} (hd : decode w = .ok i) (hlt : f.toNat < cellsOfB s i)
      (hcell : cell s.b f.toNat = 0b10#2) : Explained s w 1 true f
  | range (hd : decode w = .ok .enc4 ∨ decode w = .ok .encodeCore)
      (hv : s.valIn.toInt < 0 ∨ 80 < s.valIn.toInt) : Explained s w 2 false 0
  | length (h : ((decode w = .ok .dec4 ∨ decode w = .ok .pad) ∧ s.aLen.toNat ≠ 4) ∨
      ((decode w = .ok .unpad ∨ decode w = .ok .decodeCore ∨ decode w = .ok .frame) ∧ s.aLen.toNat ≠ 6) ∨
      (decode w = .ok .unframe ∧ s.aLen.toNat ≠ 8)) : Explained s w 3 false s.aLen
  | padding {f : Word} (hd : decode w = .ok .unpad ∨ decode w = .ok .decodeCore)
      (hf : (f = 0 ∧ cell s.a 0 ≠ tritCode s.cfg.padTrit) ∨ (f = 5 ∧ cell s.a 5 ≠ tritCode s.cfg.padTrit)) :
      Explained s w 4 false f
  | sync {f : Word} (hd : decode w = .ok .unframe)
      (hf : (f = 0 ∧ cell s.a 0 ≠ tritCode s.cfg.frameTrit) ∨ (f = 7 ∧ cell s.a 7 ≠ tritCode s.cfg.frameTrit)) :
      Explained s w 5 false f
  | pattern (hd : decode w = .ok .capply ∨ decode w = .ok .cremove) (hb : s.bLen = 0) : Explained s w 6 true 0
  | illegal {e : DecodeError} (hd : decode w = .error e) : Explained s w 7 false 0

/-- The codes 8 to 15 are never reported. -/
theorem Explained.code_le {s : State} {w : Word} {c : BitVec 4} {o : Bool} {f : Word} (h : Explained s w c o f) :
    c.toNat ≤ 7 := by cases h <;> decide

section
variable {s : State} {w : Word} {i : Instr}

/-- A shape check that is one condition is explained by that condition. -/
theorem explained_of_condition {P : Prop} [Decidable P] {c : BitVec 4} {r : Report}
    (hs : shapeCode s i = if P then c else 0) (h : shapeFailure s i = some r)
    (hrow : P → Explained s w c (decide (c = 6)) (if c = 3 then s.aLen else 0)) :
    Explained s w r.code r.operand r.offset := by
  by_cases hP : P
  · have hc : shapeCode s i = c := hs.trans (if_pos hP)
    rw [shapeFailure, hc] at h
    obtain ⟨_, h⟩ := Option.ite_none_left_eq_some.1 h
    cases h
    exact hrow hP
  · rw [shapeFailure, if_pos (hs.trans (if_neg hP))] at h
    nomatch h

/-- A failed shape check is the row of the command it belongs to. -/
theorem explained_of_shapeFailure {r : Report} (hd : decode w = .ok i) (h : shapeFailure s i = some r) :
    Explained s w r.code r.operand r.offset := by
  cases i with
  | enc4 => exact explained_of_condition rfl h fun hv => .range (.inl hd) hv
  | encodeCore => exact explained_of_condition rfl h fun hv => .range (.inr hd) hv
  | dec4 => exact explained_of_condition rfl h fun hn => .length (.inl ⟨.inl hd, hn⟩)
  | pad => exact explained_of_condition rfl h fun hn => .length (.inl ⟨.inr hd, hn⟩)
  | unpad => exact explained_of_condition rfl h fun hn => .length (.inr (.inl ⟨.inl hd, hn⟩))
  | decodeCore => exact explained_of_condition rfl h fun hn => .length (.inr (.inl ⟨.inr (.inl hd), hn⟩))
  | frame => exact explained_of_condition rfl h fun hn => .length (.inr (.inl ⟨.inr (.inr hd), hn⟩))
  | unframe => exact explained_of_condition rfl h fun hn => .length (.inr (.inr ⟨hd, hn⟩))
  | capply => exact explained_of_condition rfl h fun hb => .pattern (.inl hd) (BitVec.eq_of_toNat_eq hb)
  | cremove => exact explained_of_condition rfl h fun hb => .pattern (.inr hd) (BitVec.eq_of_toNat_eq hb)

/-- A failed symbol check names a cell that the command reads; its position fits `ERR_OFFSET`. -/
theorem symbolFailure_eq_some {buf : TritBuf} {n : Nat} {opnd : Bool} {r : Report} (hn : n < 2 ^ 32)
    (h : symbolFailure buf n opnd = some r) :
    ∃ f : Word, r = ⟨1, opnd, f⟩ ∧ f.toNat < n ∧ cell buf f.toNat = 0b10#2 := by
  obtain ⟨p, hp, rfl⟩ := Option.map_eq_some_iff.1 h
  obtain ⟨hlt, hcell, _⟩ := firstInvalid_eq_some.1 hp
  have hpos : (BitVec.ofNat 32 p).toNat = p := by rw [BitVec.toNat_ofNat, Nat.mod_eq_of_lt (hlt.trans hn)]
  exact ⟨_, rfl, hpos.symm ▸ hlt, hpos.symm ▸ hcell⟩

theorem cellsOfA_lt (s : State) (i : Instr) : cellsOfA s i < 2 ^ 32 := by
  cases i with
  | capply | cremove => exact s.aLen.isLt
  | _ => simp [cellsOfA]

theorem cellsOfB_lt (s : State) (i : Instr) : cellsOfB s i < 2 ^ 32 := by
  cases i with
  | capply | cremove => exact s.bLen.isLt
  | _ => simp [cellsOfB]

/-- A failed boundary check names a boundary position that does not hold the boundary trit. -/
theorem boundaryFailure_eq_some {r : Report} (h : boundaryFailure s i = some r) :
    ∃ c b last f, boundaryOf s i = some (c, b, last) ∧ r = ⟨c, false, f⟩ ∧
      ((f = 0 ∧ cell s.a 0 ≠ tritCode b) ∨ (f = BitVec.ofNat 32 last ∧ cell s.a last ≠ tritCode b)) := by
  obtain ⟨⟨c, b, last⟩, hb, h⟩ := Option.bind_eq_some_iff.1 h
  simp only at h
  split_ifs at h with h0 hl <;> cases h
  · exact ⟨c, b, last, _, hb, rfl, .inl ⟨rfl, h0⟩⟩
  · exact ⟨c, b, last, _, hb, rfl, .inr ⟨rfl, hl⟩⟩

theorem explained_of_boundaryFailure {r : Report} (hd : decode w = .ok i) (h : boundaryFailure s i = some r) :
    Explained s w r.code r.operand r.offset := by
  obtain ⟨c, b, last, f, hb, rfl, hf⟩ := boundaryFailure_eq_some h
  cases i with
  | unpad => cases hb; exact .padding (.inl hd) hf
  | decodeCore => cases hb; exact .padding (.inr hd) hf
  | unframe => cases hb; exact .sync hd hf
  | _ => nomatch hb

theorem explained_of_firstFailure {r : Report} (hd : decode w = .ok i) (h : firstFailure s i = some r) :
    Explained s w r.code r.operand r.offset := by
  simp only [firstFailure, Option.or_eq_some_iff] at h
  obtain h | ⟨_, h | ⟨_, h | ⟨_, h⟩⟩⟩ := h
  · exact explained_of_shapeFailure hd h
  · obtain ⟨f, rfl, hlt, hcell⟩ := symbolFailure_eq_some (cellsOfA_lt s i) h
    exact .symbolA hd hlt hcell
  · obtain ⟨f, rfl, hlt, hcell⟩ := symbolFailure_eq_some (cellsOfB_lt s i) h
    exact .symbolB hd hlt hcell
  · exact explained_of_boundaryFailure hd h

/-- A write of `CMD` leaves the report of one row of R201. -/
theorem step_explained {rest : List HostEvent} (hp : s.pending = .write 0 w :: rest) :
    ∃ t, step s = .next t ∧ Explained s w t.code t.errOperand t.errOffset := by
  obtain ⟨i, hd, he⟩ | ⟨e, hd, he⟩ := issue_cases w (s.putPending rest)
  · obtain ⟨t, ht, hreport⟩ := exec_reports i ((s.putPending rest).putCmd w)
    rw [firstFailure_putCmd, firstFailure_putPending] at hreport
    refine ⟨t, (step_write_cmd hp).trans (he.trans ht), ?_⟩
    suffices h : Explained s w t.lastReport.code t.lastReport.operand t.lastReport.offset from h
    rw [hreport]
    cases hf : firstFailure s i with
    | none => exact .ok hd
    | some r => exact explained_of_firstFailure hd hf
  · exact ⟨_, (step_write_cmd hp).trans he, .illegal hd⟩

/-- `ENC4` and `ENCODE_CORE` read no cell. -/
theorem not_core_of_reads_cell {p : Nat} (h : p < cellsOfA s i ∨ p < cellsOfB s i) :
    i ≠ .enc4 ∧ i ≠ .encodeCore := by
  constructor <;> rintro rfl <;> exact h.elim (Nat.not_lt_zero p) (Nat.not_lt_zero p)

end

end Sys2Proof.Machine
end

section
/-! The statements about the reports (60_exceptions.md). -/

namespace Sys2Proof.Machine

/-- Settles O19: what a command can do, and that none reads the report. -/
theorem everyCommandEndsInOneReport : Obligations.EveryCommandEndsInOneReport := by
  refine fun i s => ⟨?_, fun v c o f => exec_report v c o f i s⟩
  obtain herr | ⟨ts, hv, _, he⟩ | ⟨v, hv, h0, h80, he⟩ := exec_cases i s
  · exact .inl herr
  · exact .inr (.inl ⟨hv, ts, he.trans (completeVec_eq_completed ts s)⟩)
  · refine .inr (.inr ⟨hv, _, ?_, he.trans (completeVal_eq_completed v s)⟩)
    rw [BitVec.toNat_ofNat]
    omega

/-- Settles O22: the report is that of the first failure, which each clause names. -/
theorem firstFailingCheckIsReported : Obligations.FirstFailingCheckIsReported := by
  refine ⟨fun s w rest hp hd => ⟨_, (step_write_cmd hp).trans (issue_of_illegal hd _), rfl⟩, fun i s => ?_⟩
  obtain ⟨t, ht, hreport⟩ := exec_reports i s
  refine ⟨t, ht, fun h => ?_, fun h0 p hp => ?_, fun h0 ha => ⟨fun p hp => ?_, fun hb => ⟨fun hn => ?_,
    fun c b last hsome => ⟨fun hne => ?_, fun heq hne => ?_, fun heq heql => ?_⟩⟩⟩⟩
  · rw [firstFailure_of_shape h] at hreport
    exact (Report.mk.inj hreport).1
  · rw [firstFailure_of_reserved_a h0 hp] at hreport
    exact Report.mk.inj hreport
  · rw [firstFailure_of_reserved_b h0 ha hp] at hreport
    exact Report.mk.inj hreport
  · rw [firstFailure_of_symbols h0 ha hb, boundaryFailure_of_none hn] at hreport
    exact (Report.mk.inj hreport).1
  all_goals
    rw [firstFailure_of_symbols h0 ha hb, boundaryFailure_of_some hsome] at hreport
  · rw [if_pos hne] at hreport
    obtain ⟨hcode, _, hoff⟩ := Report.mk.inj hreport
    exact ⟨hcode, hoff⟩
  · rw [if_neg (not_not.2 heq), if_pos hne] at hreport
    obtain ⟨hcode, _, hoff⟩ := Report.mk.inj hreport
    exact ⟨hcode, hoff⟩
  · rw [if_neg (not_not.2 heq), if_neg (not_not.2 heql)] at hreport
    exact (Report.mk.inj hreport).1

/-- Settles O20, row by row of R201. -/
theorem errorCodeNamesItsCause : Obligations.ErrorCodeNamesItsCause := by
  intro s w rest hp
  obtain ⟨_, _, hwrites⟩ := statusIsWrittenByCommandsOnly
  obtain ⟨t, ht, hvalid, _⟩ := hwrites s w rest hp
  obtain ⟨t', ht', hrow⟩ := step_explained hp
  cases ht.symm.trans ht'
  refine ⟨t, ht, hrow.code_le, hvalid.symm, ?_⟩
  generalize t.code = c, t.errOperand = o, t.errOffset = f at hrow
  cases hrow with
  | ok hd => exact ⟨fun _ => ⟨_, hd⟩, nofun, nofun, nofun, nofun, nofun, nofun, nofun⟩
  | symbolA hd hlt hcell =>
    obtain ⟨h1, h2⟩ := not_core_of_reads_cell (.inl hlt)
    exact ⟨nofun, fun _ => ⟨_, hd, h1, h2, .inl ⟨_, hlt, hcell⟩⟩, nofun, nofun, nofun, nofun, nofun, nofun⟩
  | symbolB hd hlt hcell =>
    obtain ⟨h1, h2⟩ := not_core_of_reads_cell (.inr hlt)
    exact ⟨nofun, fun _ => ⟨_, hd, h1, h2, .inr ⟨_, hlt, hcell⟩⟩, nofun, nofun, nofun, nofun, nofun, nofun⟩
  | range hd hv => exact ⟨nofun, nofun, fun _ => ⟨hd, hv⟩, nofun, nofun, nofun, nofun, nofun⟩
  | length h => exact ⟨nofun, nofun, nofun, fun _ => h, nofun, nofun, nofun, nofun⟩
  | padding hd hf =>
    exact ⟨nofun, nofun, nofun, nofun, fun _ => ⟨hd, hf.imp And.right And.right⟩, nofun, nofun, nofun⟩
  | sync hd hf =>
    exact ⟨nofun, nofun, nofun, nofun, nofun, fun _ => ⟨hd, hf.imp And.right And.right⟩, nofun, nofun⟩
  | pattern hd hb => exact ⟨nofun, nofun, nofun, nofun, nofun, nofun, fun _ => ⟨hd, hb⟩, nofun⟩
  | illegal hd => exact ⟨nofun, nofun, nofun, nofun, nofun, nofun, nofun, fun _ => ⟨_, hd⟩⟩

/-- Settles O21, by the location in the same rows. -/
theorem errorInformationLocatesTheError : Obligations.ErrorInformationLocatesTheError := by
  intro s w rest hp
  obtain ⟨t, ht, hrow⟩ := step_explained hp
  refine ⟨t, ht, ?_⟩
  generalize t.code = c, t.errOperand = o, t.errOffset = f at hrow
  cases hrow with
  | ok hd => exact ⟨nofun, nofun, nofun, nofun, nofun, nofun, nofun, fun _ => ⟨rfl, rfl⟩⟩
  | symbolA hd hlt hcell =>
    exact ⟨fun _ => ⟨_, hd, .inl ⟨rfl, hlt, hcell⟩⟩, nofun, nofun, nofun, nofun, nofun, nofun, nofun⟩
  | symbolB hd hlt hcell =>
    exact ⟨fun _ => ⟨_, hd, .inr ⟨rfl, hlt, hcell⟩⟩, nofun, nofun, nofun, nofun, nofun, nofun, nofun⟩
  | range => exact ⟨nofun, fun _ => ⟨rfl, rfl⟩, nofun, nofun, nofun, nofun, nofun, nofun⟩
  | length => exact ⟨nofun, nofun, fun _ => ⟨rfl, rfl⟩, nofun, nofun, nofun, nofun, nofun⟩
  | padding _ hf => exact ⟨nofun, nofun, nofun, fun _ => ⟨rfl, hf⟩, nofun, nofun, nofun, nofun⟩
  | sync _ hf => exact ⟨nofun, nofun, nofun, nofun, fun _ => ⟨rfl, hf⟩, nofun, nofun, nofun⟩
  | pattern => exact ⟨nofun, nofun, nofun, nofun, nofun, fun _ => ⟨rfl, rfl⟩, nofun, nofun⟩
  | illegal => exact ⟨nofun, nofun, nofun, nofun, nofun, nofun, fun _ => ⟨rfl, rfl⟩, nofun⟩

end Sys2Proof.Machine
end

section
/-! Layer under the statements about single steps: what an answered host event can leave, what every command
leaves alone, and which events are answered. -/

namespace Sys2Proof.Machine

/-! ## The frame of a command (R20, R200, R205) -/

section
variable (e : Ending) (s : State)

@[simp] theorem Ending.leave_a : (e.leave s).a = s.a := by cases e <;> rfl
@[simp] theorem Ending.leave_aLen : (e.leave s).aLen = s.aLen := by cases e <;> rfl
@[simp] theorem Ending.leave_b : (e.leave s).b = s.b := by cases e <;> rfl
@[simp] theorem Ending.leave_bLen : (e.leave s).bLen = s.bLen := by cases e <;> rfl
@[simp] theorem Ending.leave_valIn : (e.leave s).valIn = s.valIn := by cases e <;> rfl
@[simp] theorem Ending.leave_cmd : (e.leave s).cmd = s.cmd := by cases e <;> rfl
@[simp] theorem Ending.leave_cfg : (e.leave s).cfg = s.cfg := by cases e <;> rfl
@[simp] theorem Ending.leave_pending : (e.leave s).pending = s.pending := by cases e <;> rfl
@[simp] theorem Ending.leave_readLog : (e.leave s).readLog = s.readLog := by cases e <;> rfl

theorem Ending.leave_putPending (es : List HostEvent) : e.leave (s.putPending es) = (e.leave s).putPending es := by
  cases e <;> rfl

end

/-- A state has its own operands. -/
theorem SameOperands.refl (s : State) : SameOperands s s := ⟨rfl, rfl, rfl, rfl, rfl, rfl⟩

/-- Every command ends. -/
theorem exec_ends (i : Instr) (s : State) : ∃ e : Ending, exec i s = .next (e.leave s) := by
  obtain ⟨e, he, _⟩ := exec_endAlike (SameOperands.refl s) i
  exact ⟨e, he⟩

/-- Every write of `CMD` ends, with the word stored. -/
theorem issue_ends (w : Word) (s : State) : ∃ e : Ending, issue w s = .next (e.leave (s.putCmd w)) := by
  obtain ⟨e, he, _⟩ := issue_endAlike (SameOperands.refl s) w
  exact ⟨e, he⟩

/-! ## What an answered event can leave -/

/-- The accesses of R52 and the reset of R230 that are answered, each with the state it leaves. -/
inductive Answered (s : State) : HostEvent → State → Prop where
  | reset : Answered s .reset (hostReset s)
  | read (a : Word) (reg : Reg) : Answered s (.read a) (s.logRead (readReg s reg))
  | cmd {w : Word} {t : State} (h : issue w s = .next t) : Answered s (.write 0 w) t
  | valIn (w : Word) : Answered s (.write 3 w) (s.putValIn w)
  | aLen {w : Word} (hw : w.toNat ≤ s.cfg.nMax) : Answered s (.write 5 w) (s.putALen w)
  | bLen {w : Word} (hw : w.toNat ≤ s.cfg.pMax) : Answered s (.write 6 w) (s.putBLen w)
  | aData {a : Word} (w : Word) {k : Nat} (ha : a.toNat = 0x10000 + k) (hk : k < windowWords s.cfg.nMax) :
      Answered s (.write a w) (s.putA (storeWord s.a k w))
  | bData {a : Word} (w : Word) {k : Nat} (ha : a.toNat = 0x20000 + k) (hk : k < windowWords s.cfg.pMax) :
      Answered s (.write a w) (s.putB (storeWord s.b k w))
  | readOnly (a w : Word) : Answered s (.write a w) s

theorem hostWrite_answered {a w : Word} {s t : State} (h : hostWrite a w s = .next t) :
    Answered s (.write a w) t := by
  have home {reg : Reg} (hr : regAt s.cfg a = some reg) : HomeOf s.cfg a.toNat reg := regAt_home hr
  -- A register other than a data word stands at a fixed address.
  have addr {n : Nat} (hn : a.toNat = n) : a = BitVec.ofNat 32 n := by rw [← hn, BitVec.ofNat_toNat, BitVec.setWidth_eq]
  obtain ⟨_, he⟩ | ⟨hr, he⟩ | ⟨hr, he⟩ | ⟨_, _, he⟩ | ⟨hr, hw, he⟩ | ⟨_, _, he⟩ | ⟨hr, hw, he⟩ | ⟨k, hr, he⟩ |
    ⟨k, hr, he⟩ | ⟨_, _, he⟩ := hostWrite_cases a w s <;> rw [he] at h
  · nomatch h
  · cases addr (home hr); exact .cmd h
  · cases h; cases addr (home hr); exact .valIn w
  · nomatch h
  · cases h; cases addr (home hr); exact .aLen hw
  · nomatch h
  · cases h; cases addr (home hr); exact .bLen hw
  · cases h; exact .aData w (home hr).1 (home hr).2
  · cases h; exact .bData w (home hr).1 (home hr).2
  · cases h; exact .readOnly a w

theorem hostEvent_answered {e : HostEvent} {s t : State} (h : hostEvent e s = .next t) : Answered s e t := by
  cases e with
  | reset => cases h; exact .reset
  | read a =>
    obtain ⟨_, he⟩ | ⟨reg, _, he⟩ := hostRead_cases a s
    · nomatch he.symm.trans h
    · cases he.symm.trans h; exact .read a reg
  | write a w => exact hostWrite_answered h

/-- A step that is answered is idle, or performs the head of the queue. -/
theorem step_answered {s t : State} (h : step s = .next t) :
    (s.pending = [] ∧ t = s) ∨ (∃ e rest, s.pending = e :: rest ∧ Answered (s.putPending rest) e t) := by
  cases hp : s.pending with
  | nil => exact .inl ⟨rfl, (Host.Outcome.next.inj ((step_nil hp).symm.trans h)).symm⟩
  | cons e rest => exact .inr ⟨e, rest, rfl, hostEvent_answered ((step_cons hp).symm.trans h)⟩

section
variable {e : HostEvent} {s t : State}

/-- The rest of the queue survives every event (assumptions 3 and 7). -/
theorem Answered.pending (h : Answered s e t) : t.pending = s.pending := by
  cases h with
  | cmd hi =>
    obtain ⟨e, he⟩ := issue_ends _ s
    cases he.symm.trans hi
    exact e.leave_pending _
  | _ => rfl

/-- Only a read adds to the record of the words read (assumption 4). -/
theorem Answered.readLog (h : Answered s e t) :
    (∃ a w, e = .read a ∧ t.readLog = s.readLog ++ [w]) ∨ t.readLog = s.readLog := by
  cases h with
  | read a reg => exact .inl ⟨a, _, rfl, rfl⟩
  | cmd hi =>
    obtain ⟨e, he⟩ := issue_ends _ s
    cases he.symm.trans hi
    exact .inr (e.leave_readLog _)
  | _ => exact .inr rfl

end

/-! ## The invariant -/

/-- Every register right after reset is 0, and 0 is a valid code (R34, R35). -/
theorem inv_resetOf {c : Cfg} (hc : c.wf = true) : Inv (State.resetOf c) where
  cfg_wf := hc
  aLen_le := Nat.zero_le _
  bLen_le := Nat.zero_le _
  rLen_le := Nat.zero_le _
  a_length := List.length_replicate
  b_length := List.length_replicate
  r_length := List.length_replicate
  valid_clear := nofun
  code_le := Nat.zero_le _
  rVal_le := Nat.zero_le _
  r_valid := fun _ hx => (List.eq_of_mem_replicate hx) ▸ rfl

theorem Inv.hostReset {s : State} (h : Inv s) : Inv (hostReset s) := { inv_resetOf h.cfg_wf with }

/-- A command's result fits `R`: it has at most 8 cells, which R6 makes room for, or as many as `A` (R35). -/
theorem Inv.result_le {s : State} (h : Inv s) {n : Nat} (hn : n ≤ 8 ∨ n = s.aLen.toNat) : n ≤ s.cfg.nMax := by
  have h8 := h.nMax_ge
  have ha := h.aLen_le
  omega

theorem Inv.issue {s t : State} {w : Word} (h : Inv s) (hi : issue w s = .next t) : Inv t := by
  have hw : Inv (s.putCmd w) := h.putCmd w
  obtain ⟨c, o, f, _, h7, he⟩ | ⟨_, ts, _, _, hl, he⟩ | ⟨_, v, _, _, _, h80, he⟩ := issue_outcome w s <;>
    cases he.symm.trans hi
  · exact hw.report nofun h7
  · exact (hw.putVec (h.result_le hl)).report (fun _ => ⟨rfl, rfl, rfl⟩) (Nat.zero_le _)
  · exact (hw.putVal h80).report (fun _ => ⟨rfl, rfl, rfl⟩) (Nat.zero_le _)

theorem Inv.answered {s t : State} {e : HostEvent} (h : Inv s) (ha : Answered s e t) : Inv t := by
  cases ha with
  | reset => exact h.hostReset
  | read => exact h.logRead _
  | cmd hi => exact h.issue hi
  | valIn w => exact h.putValIn w
  | aLen hw => exact h.putALen hw
  | bLen hw => exact h.putBLen hw
  | aData => exact h.putA (storeWord_length _ _ _)
  | bData => exact h.putB (storeWord_length _ _ _)
  | readOnly => exact h

theorem Inv.step {s t : State} (h : Inv s) (hs : step s = .next t) : Inv t := by
  obtain ⟨_, rfl⟩ | ⟨_, rest, _, ha⟩ := step_answered hs
  · exact h
  · exact (h.putPending rest).answered ha

/-- A write of `CMD` leaves `R_LEN` alone, or with the length of a result (R24, R35). -/
theorem issue_rLen {w : Word} {s t : State} (hi : issue w s = .next t) :
    t.rLen = s.rLen ∨ t.rLen.toNat ≤ 8 ∨ t.rLen = s.aLen := by
  obtain ⟨_, _, _, _, _, he⟩ | ⟨_, ts, _, _, hl, he⟩ | ⟨_, _, _, _, _, _, he⟩ := issue_outcome w s <;>
    cases he.symm.trans hi
  · exact .inl rfl
  · obtain h8 | ha := hl
    · exact .inr (.inl ((BitVec.toNat_ofNat _ _).trans_le ((Nat.mod_le _ _).trans h8)))
    · exact .inr (.inr (by rw [State.report_rLen, State.putVec_rLen, ha, BitVec.ofNat_toNat, BitVec.setWidth_eq]))
  · exact .inl rfl

/-! ## Which events are answered (R52) -/

/-- A mapped address is a length register's exactly if its number is 5 or 6 (R51). -/
theorem HomeOf.length_iff {c : Cfg} {n : Nat} {reg : Reg} (h : HomeOf c n reg) :
    (n = 5 ↔ reg = .aLen) ∧ (n = 6 ↔ reg = .bLen) := by
  cases reg with
  | aData k | bData k | rData k =>
    obtain ⟨h, _⟩ := h
    exact ⟨iff_of_false (by omega) nofun, iff_of_false (by omega) nofun⟩
  | _ => cases h; decide

/-- The lengths R52 refuses: `A_LEN` above `N_MAX`, `B_LEN` above `P_MAX`. -/
def TooLong (c : Cfg) (w : Word) (reg : Reg) : Prop :=
  (reg = .aLen ∧ c.nMax < w.toNat) ∨ (reg = .bLen ∧ c.pMax < w.toNat)

section
variable {a w : Word} {s : State} {reg : Reg}

theorem hostEventWf_write (hr : regAt s.cfg a = some reg) :
    hostEventWf s.cfg (.write a w) = true ↔ ¬ TooLong s.cfg w reg := by
  obtain ⟨h5, h6⟩ := (regAt_home hr).length_iff
  have hm : addrMapped s.cfg a.toNat = true := by rw [← regAt_isSome, hr]; rfl
  simp only [hostEventWf, TooLong, hm, Bool.true_and, Bool.and_eq_true, Bool.not_eq_true', ← Bool.decide_and,
    decide_eq_false_iff_not, h5, h6, not_or]

theorem writeReg_of_tooLong (h : TooLong s.cfg w reg) : ∃ r, writeReg a w s reg = .refused r := by
  obtain ⟨rfl, hw⟩ | ⟨rfl, hw⟩ := h
  · exact ⟨_, if_pos hw⟩
  · exact ⟨_, if_pos hw⟩

theorem writeReg_of_not_tooLong (h : ¬ TooLong s.cfg w reg) : ∃ t, writeReg a w s reg = .next t := by
  cases reg with
  | cmd =>
    obtain ⟨e, he⟩ := issue_ends w s
    exact ⟨_, he⟩
  | aLen => exact ⟨_, if_neg fun hw => h (.inl ⟨rfl, hw⟩)⟩
  | bLen => exact ⟨_, if_neg fun hw => h (.inr ⟨rfl, hw⟩)⟩
  | _ => exact ⟨_, rfl⟩

end

/-- An access is answered if R52 admits it, and refused if not. -/
theorem hostEvent_admission (e : HostEvent) (s : State) :
    (hostEventWf s.cfg e = true ∧ ∃ t, hostEvent e s = .next t) ∨
    (hostEventWf s.cfg e = false ∧ ∃ r, hostEvent e s = .refused r) := by
  cases e with
  | reset => exact .inl ⟨rfl, _, rfl⟩
  | read a =>
    obtain ⟨hr, he⟩ | ⟨reg, hr, he⟩ := hostRead_cases a s
    · exact .inr ⟨by rw [hostEventWf, ← regAt_isSome, hr]; rfl, _, he⟩
    · exact .inl ⟨by rw [hostEventWf, ← regAt_isSome, hr]; rfl, _, he⟩
  | write a w =>
    cases hr : regAt s.cfg a with
    | none =>
      have hm : addrMapped s.cfg a.toNat = false := by rw [← regAt_isSome, hr]; rfl
      exact .inr ⟨by rw [hostEventWf, hm, Bool.false_and, Bool.false_and], _, by rw [hostEvent, hostWrite, hr]⟩
    | some reg =>
      have he : hostEvent (.write a w) s = writeReg a w s reg := by rw [hostEvent, hostWrite, hr]
      rw [he]
      by_cases hl : TooLong s.cfg w reg
      · exact .inr ⟨Bool.eq_false_iff.2 fun hwf => (hostEventWf_write hr).1 hwf hl, writeReg_of_tooLong hl⟩
      · exact .inl ⟨(hostEventWf_write hr).2 hl, writeReg_of_not_tooLong hl⟩

/-- Where every pending event is admitted, a step is answered (R52, R230). -/
theorem exists_step_of_admitted {s : State} (h : ∀ e ∈ s.pending, hostEventWf s.cfg e = true) :
    ∃ t, step s = .next t := by
  cases hp : s.pending with
  | nil => exact ⟨s, step_nil hp⟩
  | cons e rest =>
    obtain ⟨_, t, ht⟩ | ⟨hwf, _⟩ := hostEvent_admission e (s.putPending rest)
    · exact ⟨t, (step_cons hp).trans ht⟩
    · have hadm : hostEventWf s.cfg e = true := h e (hp ▸ List.mem_cons_self)
      exact nomatch hwf.symm.trans hadm

/-- A step takes exactly the head off the queue. -/
theorem step_pending {s t : State} (h : step s = .next t) : t.pending = s.pending.tail := by
  obtain ⟨hp, rfl⟩ | ⟨e, rest, hp, ha⟩ := step_answered h
  · rw [hp]; rfl
  · rw [ha.pending, hp]; rfl

/-! ## The queue (R58) -/

section
variable {s t : State} (es : List HostEvent)

/-- What a write of `CMD` does is apart from what is queued behind it. -/
theorem issue_putPending {w : Word} (h : issue w s = .next t) :
    issue w (s.putPending es) = .next (t.putPending es) := by
  have hs : SameOperands s (s.putPending es) := ⟨rfl, rfl, rfl, rfl, rfl, rfl⟩
  obtain ⟨e, he, he'⟩ := issue_endAlike hs w
  cases he.symm.trans h
  rw [he', State.putPending_putCmd_comm, e.leave_putPending]

theorem writeReg_putPending {a w : Word} {reg : Reg} (h : writeReg a w s reg = .next t) :
    writeReg a w (s.putPending es) reg = .next (t.putPending es) := by
  cases reg with
  | cmd => exact issue_putPending es h
  | aLen | bLen =>
    simp only [writeReg] at h
    split at h
    · nomatch h
    · next hw => cases h; exact if_neg hw
  | _ => cases h; rfl

/-- So is every event. -/
theorem hostEvent_putPending {e : HostEvent} (h : hostEvent e s = .next t) :
    hostEvent e (s.putPending es) = .next (t.putPending es) := by
  cases e with
  | reset => cases h; rfl
  | read a =>
    rw [hostEvent, hostRead, State.putPending_cfg]
    obtain ⟨_, he⟩ | ⟨reg, hr, he⟩ := hostRead_cases a s <;> cases he.symm.trans h
    rw [hr]
    simp only [readReg_putPending, State.putPending_logRead_comm]
  | write a w =>
    rw [hostEvent, hostWrite] at h ⊢
    rw [State.putPending_cfg]
    cases hr : regAt s.cfg a with
    | none => rw [hr] at h; nomatch h
    | some reg => rw [hr] at h; exact writeReg_putPending es h

end

/-- The events at the head of a queue are performed in their order, each on the state the one before it left. -/
theorem run_of_runEvents (es : List HostEvent) {s t : State} (h : runEvents es s = .next t) :
    Host.Core.run core es.length (s.putPending (es ++ s.pending)) = .next t := by
  induction es generalizing s with
  | nil => exact h
  | cons e es ih =>
    rw [runEvents] at h
    cases he : hostEvent e s with
    | next u =>
      rw [he] at h
      have hu : u.pending = s.pending := (hostEvent_answered he).pending
      have hstep : step (s.putPending (e :: es ++ s.pending)) = .next (u.putPending (es ++ s.pending)) :=
        (step_cons rfl).trans (hostEvent_putPending (s := s) (es ++ s.pending) he)
      rw [List.length_cons, run_succ_next hstep, ← hu]
      exact ih h
    | fault f => nomatch f
    | refused r => rw [he] at h; nomatch h

end Sys2Proof.Machine
end

section
/-! The statements about single steps: the invariant, the queue, and what is refused. -/

namespace Sys2Proof.Machine

/-- Settles O26: the invariant of an answered event, `step_cfg`, and the length of a result. -/
theorem stepKeepsTheInvariant : Obligations.StepKeepsTheInvariant := by
  refine fun s t hI h => ⟨hI.step h, step_cfg h, fun w rest hp => ?_⟩
  exact issue_rLen (s := s.putPending rest) ((step_write_cmd hp).symm.trans h)

/-- Settles O51: an admitted head is answered, and the rest of the queue and the configuration stay. -/
theorem admittedQueueStaysAdmitted : Obligations.AdmittedQueueStaysAdmitted := by
  intro s h
  obtain ⟨t, ht⟩ := exists_step_of_admitted h
  refine ⟨t, ht, fun e he => ?_⟩
  rw [step_pending ht] at he
  rw [step_cfg ht]
  exact h e (List.mem_of_mem_tail he)

/-- Settles O28: each answered event, and the operand it writes. -/
theorem operandsAreWrittenByTheHostOnly : Obligations.OperandsAreWrittenByTheHostOnly := by
  refine ⟨fun i s => ?_, fun s t h => ?_⟩
  · obtain ⟨e, he⟩ := exec_ends i s
    exact ⟨_, he, by simp⟩
  · -- An operand that keeps its value has nothing to show.
    have kept {α : Type} {x : α} {P : Prop} (hne : x ≠ x) : P := absurd rfl hne
    obtain ⟨_, rfl⟩ | ⟨e, rest, hp, ha⟩ := step_answered h
    · exact .inr (.inl ⟨rfl, rfl, rfl, rfl, rfl, rfl⟩)
    · cases ha with
      | reset => exact .inl ⟨rest, hp⟩
      | read => exact .inr (.inl ⟨rfl, rfl, rfl, rfl, rfl, rfl⟩)
      | readOnly => exact .inr (.inl ⟨rfl, rfl, rfl, rfl, rfl, rfl⟩)
      | @cmd w t hi =>
        obtain ⟨e, he⟩ := issue_ends w (s.putPending rest)
        cases he.symm.trans hi
        exact .inr (.inr ⟨0, w, rest, hp, by simp⟩)
      | valIn w => exact .inr (.inr ⟨3, w, rest, hp, kept, kept, kept, kept, fun _ => ⟨rfl, rfl⟩, kept⟩)
      | @aLen w _ => exact .inr (.inr ⟨5, w, rest, hp, kept, fun _ => ⟨rfl, rfl⟩, kept, kept, kept, kept⟩)
      | @bLen w _ => exact .inr (.inr ⟨6, w, rest, hp, kept, kept, kept, fun _ => ⟨rfl, rfl⟩, kept, kept⟩)
      | @aData a w k ha hk =>
        rw [State.putPending_cfg] at hk
        exact .inr (.inr ⟨a, w, rest, hp, fun _ => ⟨by omega, by omega⟩, kept, kept, kept, kept, kept⟩)
      | @bData a w k ha hk =>
        rw [State.putPending_cfg] at hk
        exact .inr (.inr ⟨a, w, rest, hp, kept, kept, fun _ => ⟨by omega, by omega⟩, kept, kept, kept⟩)

/-- Settles O33: one event by `Answered`, a run of them by induction. -/
theorem queueRunsInProgramOrder : Obligations.QueueRunsInProgramOrder := by
  refine ⟨fun s t h => ⟨step_pending h, ?_⟩, fun es s t h => run_of_runEvents es h, fun e es s t h => ?_⟩
  · obtain ⟨_, rfl⟩ | ⟨e, rest, hp, ha⟩ := step_answered h
    · exact .inr rfl
    · obtain ⟨a, w, rfl, hlog⟩ | hlog := ha.readLog
      · exact .inl ⟨a, rest, w, hp, hlog⟩
      · exact .inr hlog
  · rw [runEvents, h]

/-- Settles O34: a refusal is the inadmissible head's; commands always end. -/
theorem onlyInadmissibleAccessesAreRefused : Obligations.OnlyInadmissibleAccessesAreRefused := by
  refine fun s => ⟨⟨fun ⟨r, hr⟩ => ?_, fun ⟨e, rest, hp, hwf⟩ => ?_⟩, nofun, fun i => ?_⟩
  · cases hp : s.pending with
    | nil => exact nomatch (step_nil hp).symm.trans hr
    | cons e rest =>
      have hr' : hostEvent e (s.putPending rest) = .refused r := (step_cons hp).symm.trans hr
      obtain ⟨_, t, ht⟩ | ⟨hwf, _⟩ := hostEvent_admission e (s.putPending rest)
      · exact nomatch ht.symm.trans hr'
      · exact ⟨e, rest, rfl, hwf⟩
  · obtain ⟨hadm, _⟩ | ⟨_, r, hr⟩ := hostEvent_admission e (s.putPending rest)
    · exact nomatch hwf.symm.trans hadm
    · exact ⟨r, (step_cons hp).trans hr⟩
  · obtain ⟨e, he⟩ := exec_ends i s
    exact ⟨_, he⟩

/-- Settles O25: the reset state of every allowed configuration, and the one of `State.reset` is allowed. -/
theorem invariantHoldsAtReset : Obligations.InvariantHoldsAtReset :=
  ⟨fun _ hc => inv_resetOf hc, inv_resetOf Config.cfg_wf⟩

/-- Settles O37: a step on an empty queue is idle. -/
theorem idleStepChangesNothing : Obligations.IdleStepChangesNothing := fun _ hp => step_nil hp

/-- Settles O4: a write of `CMD` is `issue`, and the queued word is the encoder's. -/
theorem stepRunsTheDecodedCommand : Obligations.StepRunsTheDecodedCommand := by
  refine ⟨fun s w rest i hp hd => (step_write_cmd hp).trans (issue_of_ok hd _), fun s i => ?_⟩
  have hw : tableWord 32 (encode i).toNat = encode i :=
    BitVec.eq_of_toNat_eq ((tableWord_toNat _).trans (Nat.mod_eq_of_lt (encode i).isLt))
  have hp : (s.withFetchWord 32 (encode i).toNat).pending = .write 0 (encode i) :: s.pending :=
    congrArg (fun w => HostEvent.write 0 w :: s.pending) hw
  exact (step_write_cmd hp).trans (issue_of_ok (decode_encode i) s)

/-- Settles O35, by induction on the number of steps: an admitted queue stays admitted. -/
theorem admittedQueueRunsSafely : Obligations.AdmittedQueueRunsSafely := by
  intro s h k
  induction k generalizing s with
  | zero => exact ⟨s, run_zero s⟩
  | succ k ih =>
    obtain ⟨t, ht, hadm⟩ := admittedQueueStaysAdmitted s h
    rw [run_succ_next ht]
    exact ih t hadm

end Sys2Proof.Machine
end

section
/-! Layer under the laws of the codec: trits are the residues mod 3 (40_ternary_codec.md section 1), digits and value
are inverse (section 2), and a result read back by the command that undoes it. -/

namespace Sys2Proof.Machine

/-! ## Trits as residues mod 3 (R101 to R103) -/

/-- One correction by 3 brings a number in `[-2, 2]` into `[-1, 1]`: the two tests of R101 exclude each other. -/
theorem wrapSum_of_sum {n : Int} (hlo : -2 ≤ n) (hhi : n ≤ 2) :
    wrapSum n = (if n > 1 then n - 3 else if n < -1 then n + 3 else n) ∧ -1 ≤ wrapSum n ∧ wrapSum n ≤ 1 := by
  unfold wrapSum
  dsimp only
  split_ifs <;> omega

section
variable (a b c : Trit)

/-- The sum of R101, as an integer. -/
theorem tritInt_addMod3 : tritInt (addMod3 a b) =
    if tritInt a + tritInt b > 1 then tritInt a + tritInt b - 3
    else if tritInt a + tritInt b < -1 then tritInt a + tritInt b + 3
    else tritInt a + tritInt b := by
  have ha := tritInt_bounds a
  have hb := tritInt_bounds b
  obtain ⟨heq, hlo, hhi⟩ := wrapSum_of_sum (n := tritInt a + tritInt b) (by omega) (by omega)
  rw [addMod3, tritInt_intTrit hlo hhi, heq]

theorem addMod3_emod : (tritInt (addMod3 a b) - (tritInt a + tritInt b)) % 3 = 0 := by
  rw [tritInt_addMod3]
  split_ifs <;> omega

theorem tritInt_negTrit : tritInt (negTrit a) = -tritInt a := by cases a <;> rfl

/-- Two trits are at most 2 apart, so congruent ones are equal. -/
theorem trit_eq_of_emod {t u : Trit} (h : (tritInt t - tritInt u) % 3 = 0) : t = u := by
  have ht := tritInt_bounds t
  have hu := tritInt_bounds u
  exact tritInt_inj.1 (by omega)

theorem addMod3_comm : addMod3 a b = addMod3 b a := by
  have h1 := addMod3_emod a b
  have h2 := addMod3_emod b a
  exact trit_eq_of_emod (by omega)

theorem addMod3_assoc : addMod3 (addMod3 a b) c = addMod3 a (addMod3 b c) := by
  have h1 := addMod3_emod (addMod3 a b) c
  have h2 := addMod3_emod a b
  have h3 := addMod3_emod a (addMod3 b c)
  have h4 := addMod3_emod b c
  exact trit_eq_of_emod (by omega)

theorem addMod3_zero : addMod3 a .zero = a := by
  have h := addMod3_emod a .zero
  exact trit_eq_of_emod (by simpa [tritInt] using h)

theorem addMod3_negTrit : addMod3 a (negTrit a) = .zero := by
  have h := addMod3_emod a (negTrit a)
  rw [tritInt_negTrit] at h
  exact trit_eq_of_emod (by simpa [tritInt] using h)

/-- Removal undoes overlay in one lane (R103). -/
theorem subMod3_addMod3 : subMod3 (addMod3 a b) b = a := by
  rw [subMod3, addMod3_assoc, addMod3_negTrit, addMod3_zero]

/-- Overlay undoes removal in one lane (R103). -/
theorem addMod3_subMod3 : addMod3 (subMod3 a b) b = a := by
  rw [subMod3, addMod3_assoc, addMod3_comm (negTrit b), addMod3_negTrit, addMod3_zero]

end

/-! ## Digits and value (R104, R105) -/

/-- A round of R104's loop divides exactly. -/
theorem balDigit_exact (n : Int) : n - balDigit n = 3 * ((n - balDigit n) / 3) := by unfold balDigit; omega

theorem balValueFrom_succ (k : Nat) (d : List Trit) : balValueFrom (k + 1) d = 3 * balValueFrom k d := by
  induction d generalizing k with
  | nil => rfl
  | cons t d ih => rw [balValueFrom, balValueFrom, ih, pow_succ]; ring

theorem balValue_cons (t : Trit) (d : List Trit) : balValue (t :: d) = tritInt t + 3 * balValue d := by
  rw [balValue, balValueFrom, balValueFrom_succ, balValue, pow_zero, mul_one]

/-- R104's loop reads the digits of a value back, the least significant one first. -/
theorem balDigitsFrom_balValue (d : List Trit) : balDigitsFrom d.length (balValue d) = d := by
  induction d with
  | nil => rfl
  | cons t d ih =>
    have ht := tritInt_bounds t
    have hdigit : balDigit (balValue (t :: d)) = tritInt t := by rw [balValue_cons]; unfold balDigit; omega
    have hrest : (balValue (t :: d) - tritInt t) / 3 = balValue d := by rw [balValue_cons]; omega
    rw [List.length_cons, balDigitsFrom, hdigit, hrest, intTrit_tritInt, ih]

/-- `bal_digits` undoes `bal_value` (R105). -/
theorem balDigits_balValue {d : List Trit} (h : d.length = 4) : balDigits (balValue d) = d := by
  rw [balDigits, ← h, balDigitsFrom_balValue]

/-- Two cores with the same value are the same core. -/
theorem balValue_inj {c d : List Trit} (hc : c.length = 4) (hd : d.length = 4) (h : balValue c = balValue d) :
    c = d := by
  rw [← balDigits_balValue hc, h, balDigits_balValue hd]

end Sys2Proof.Machine
end

section
/-! The statements about trit arithmetic and the digits (40_ternary_codec.md sections 1 and 2). -/

namespace Sys2Proof.Machine

/-- Settles O5: the laws are those of the residues mod 3. -/
theorem tritAdditionIsArithmeticModThree : Obligations.TritAdditionIsArithmeticModThree :=
  ⟨tritInt_addMod3, addMod3_emod,
    fun a b c => ⟨addMod3_comm a b, addMod3_assoc a b c, addMod3_zero a, addMod3_negTrit a⟩, tritInt_negTrit,
    fun a b => ⟨rfl, subMod3_addMod3 a b, addMod3_subMod3 a b⟩⟩

/-- Settles O6: the loop's numbers shrink from `[-40, 40]` to 13, 4 and 1 off 0, and each round is exact. -/
theorem balancedDigitsAndValueAreInverse : Obligations.BalancedDigitsAndValueAreInverse := by
  refine ⟨fun n hlo hhi => ?_, fun d0 d1 d2 d3 => ?_⟩
  · have h0 := balDigit_exact n
    generalize hn1 : (n - balDigit n) / 3 = n1 at h0
    have h1 := balDigit_exact n1
    generalize hn2 : (n1 - balDigit n1) / 3 = n2 at h1
    have h2 := balDigit_exact n2
    generalize hn3 : (n2 - balDigit n2) / 3 = n3 at h2
    have b0 := balDigit_bounds n
    have b1 := balDigit_bounds n1
    have b2 := balDigit_bounds n2
    have h3 : n3 - balDigit n3 = 0 := by unfold balDigit; omega
    have hdigits : balDigits n =
        [intTrit (balDigit n), intTrit (balDigit n1), intTrit (balDigit n2), intTrit (balDigit n3)] := by
      subst hn1 hn2 hn3; rfl
    refine ⟨_, _, _, _, n1, n2, n3, hdigits, ?_⟩
    simp only [tritInt_intTrit_balDigit]
    exact ⟨rfl, h0, rfl, h1, rfl, h2, rfl, h3, by omega, balValue_balDigits hlo hhi⟩
  · have hcore := balValue_core_bounds (ts := [d0, d1, d2, d3]) rfl
    exact ⟨balValue_four d0 d1 d2 d3, by omega, by omega, balDigits_balValue rfl⟩

end Sys2Proof.Machine
end

section
/-! Layer under the statement about what a command's result depends on (10_state.md R20): the report and the result
as one relation between two next states. -/

namespace Sys2Proof.Machine

/-- Cells of a written result depend on the result alone, where the buffers have one capacity. -/
theorem cell_writeTrits_congr {buf buf' : TritBuf} (hlen : buf'.length = buf.length) {ts : List Trit} {k : Nat}
    (hk : k < ts.length) : cell (writeTrits buf ts) k = cell (writeTrits buf' ts) k := by
  by_cases hb : k < buf.length
  · rw [cell_writeTrits_lt hk hb, cell_writeTrits_lt hk (hlen ▸ hb)]
  · rw [cell_of_length_le (by simpa using hb), cell_of_length_le (by simpa [hlen] using hb)]

/-- The same report and, on completion, the same result of the kind that command `i` writes. -/
structure SameResult (i : Instr) (t t' : State) : Prop where
  status : statusWord t = statusWord t'
  offset : t.errOffset = t'.errOffset
  vec : t.valid = true → writesVec i = true → t.rLen = t'.rLen ∧ ∀ k, k < t.rLen.toNat → cell t.r k = cell t'.r k
  val : t.valid = true → writesVec i = false → t.rVal = t'.rVal

theorem SameResult.trans {i : Instr} {t u v : State} (h : SameResult i t u) (h' : SameResult i u v) :
    SameResult i t v := by
  have hvalid : u.valid = t.valid := by rw [← statusWord_valid, ← statusWord_valid, h.status]
  refine ⟨h.status.trans h'.status, h.offset.trans h'.offset, fun hv hw => ?_, fun hv hw => ?_⟩
  · obtain ⟨hl, hc⟩ := h.vec hv hw
    obtain ⟨hl', hc'⟩ := h'.vec (hvalid.trans hv) hw
    exact ⟨hl.trans hl', fun k hk => (hc k hk).trans (hc' k (hl ▸ hk))⟩
  · exact (h.val hv hw).trans (h'.val (hvalid.trans hv) hw)

section
variable {i : Instr} {s t : State}

/-- A command of R24 leaves `R_VAL` alone. -/
theorem exec_rVal (hw : writesVec i = true) (h : exec i s = .next t) : t.rVal = s.rVal := by
  obtain ⟨_, _, _, _, _, he⟩ | ⟨_, _, _, he⟩ | ⟨_, hw', _⟩ := exec_cases i s
  · cases he.symm.trans h; rfl
  · cases he.symm.trans h; rfl
  · exact nomatch hw.symm.trans hw'

/-- A command of R26 leaves `R_LEN` alone. -/
theorem exec_rLen (hw : writesVec i = false) (h : exec i s = .next t) : t.rLen = s.rLen := by
  obtain ⟨_, _, _, _, _, he⟩ | ⟨_, hw', _⟩ | ⟨_, _, _, _, he⟩ := exec_cases i s
  · cases he.symm.trans h; rfl
  · exact nomatch hw.symm.trans hw'
  · cases he.symm.trans h; rfl

/-- Where the two states differ in `R_VAL` and in `R_LEN`, the ending they share is of the command's own kind: one of
the other kind would write one word into a register that the command leaves alone in both. -/
theorem sameResult_of_ne {s' t' : State} (h : SameOperands s s') (hr : s'.r.length = s.r.length)
    (hval : s'.rVal ≠ s.rVal) (hlen : s'.rLen ≠ s.rLen) (ht : exec i s = .next t) (ht' : exec i s' = .next t') :
    SameResult i t t' := by
  obtain ⟨e, he, he'⟩ := exec_endAlike h i
  cases he.symm.trans ht
  cases he'.symm.trans ht'
  cases e with
  | error code opnd off => exact ⟨rfl, rfl, nofun, nofun⟩
  | vec ts =>
    refine ⟨rfl, rfl, fun _ _ => ⟨rfl, fun k hk => cell_writeTrits_congr hr ?_⟩, fun _ hw => ?_⟩
    · exact hk.trans_le ((BitVec.toNat_ofNat _ _).trans_le (Nat.mod_le _ _))
    · have hs := exec_rLen hw ht
      have hs' := exec_rLen hw ht'
      exact absurd (hs'.symm.trans hs) hlen
  | val v =>
    refine ⟨rfl, rfl, fun _ hw => ?_, fun _ _ => rfl⟩
    have hs := exec_rVal hw ht
    have hs' := exec_rVal hw ht'
    exact absurd (hs'.symm.trans hs) hval

end

/-- A word other than two given ones. -/
theorem exists_ne_ne (x y : Word) : ∃ z : Word, z ≠ x ∧ z ≠ y := by
  obtain ⟨z, hz⟩ := Finset.exists_mem_notMem_of_card_lt_card (s := {x, y}) (t := {0#32, 1#32, 2#32})
    ((Finset.card_le_two).trans_lt (by decide))
  exact ⟨z, by simpa using hz.2⟩

/-- The operands decide report and result (R20): between any two states stands a third that differs from both in
`R_VAL` and `R_LEN`. -/
theorem sameResult_of_sameOperands {i : Instr} {s s' t t' : State} (h : SameOperands s s')
    (hr : s'.r.length = s.r.length) (ht : exec i s = .next t) (ht' : exec i s' = .next t') : SameResult i t t' := by
  obtain ⟨v, hv, hv'⟩ := exists_ne_ne s.rVal s'.rVal
  obtain ⟨n, hn, hn'⟩ := exists_ne_ne s.rLen s'.rLen
  let u : State := { s with rVal := v, rLen := n }
  obtain ⟨e, hu⟩ := exec_ends i u
  have hleft := sameResult_of_ne (s := s) (s' := u) ⟨rfl, rfl, rfl, rfl, rfl, rfl⟩ rfl hv hn ht hu
  have hright := sameResult_of_ne (s := u) (s' := s') { h with } hr hv'.symm hn'.symm hu ht'
  exact hleft.trans hright

end Sys2Proof.Machine
end

section
/-! The statement about what a command's result depends on (10_state.md R20). -/

namespace Sys2Proof.Machine

/-- Settles O29: the operands decide the ending; the invariant gives both result buffers one capacity. -/
theorem commandsDependOnOperandsOnly : Obligations.CommandsDependOnOperandsOnly := by
  intro i s s' t t' hI hI' hvalIn haLen ha hbLen hb hcfg ht ht'
  have hr : s'.r.length = s.r.length := by rw [hI'.r_length, hI.r_length, hcfg]
  have hsame := sameResult_of_sameOperands ⟨hvalIn, haLen, ha, hbLen, hb, hcfg⟩ hr ht ht'
  exact ⟨hsame.status, hsame.offset, hsame.vec, hsame.val⟩

end Sys2Proof.Machine
end

section
/-! Layer under the laws over several commands: a result that the host has moved into `A`, with and without one changed
cell, and the commands that undo each other on it. -/

namespace Sys2Proof.Machine

/-! ## Words of core values (R10, R75) -/

/-- A word that is no negative number is the word of its value. -/
theorem ofNat_toInt_toNat {w : Word} (h : 0 ≤ w.toInt) : BitVec.ofNat 32 w.toInt.toNat = w := by
  have hlt : 2 * w.toNat < 2 ^ 32 := BitVec.toInt_pos_iff.1 h
  rw [BitVec.toInt_eq_toNat_of_lt hlt, Int.toNat_natCast, BitVec.ofNat_toNat, BitVec.setWidth_eq]

/-- The word of a core value is that value as a signed number. -/
theorem toInt_ofNat_core {v : Int} (h0 : 0 ≤ v) (h80 : v ≤ 80) : (BitVec.ofNat 32 v.toNat).toInt = v := by
  have hw : (BitVec.ofNat 32 v.toNat).toNat = v.toNat := by rw [BitVec.toNat_ofNat, Nat.mod_eq_of_lt (by omega)]
  rw [BitVec.toInt_eq_toNat_of_lt (by omega), hw, Int.toNat_of_nonneg h0]

/-- The value of a core value's digits is that core value again (R105, R108). -/
theorem completeVal_balDigits {w : Word} (h0 : 0 ≤ w.toInt) (h80 : w.toInt ≤ 80) (s : State) :
    completeVal (balValue (balDigits (w.toInt - 40)) + 40) s = .next (completed { s with rVal := w }) := by
  rw [balValue_balDigits (by omega) (by omega), Int.sub_add_cancel, completeVal_eq_completed, ofNat_toInt_toNat h0]

/-! ## Operands and results that hold one sequence -/

/-- Two buffers that hold the same sequence agree in the length and on its cells. -/
theorem Holds.agree {buf buf' : TritBuf} {len len' : Word} {ts : List Trit} (h : Holds buf len ts)
    (h' : Holds buf' len' ts) : len = len' ∧ ∀ i, i < len.toNat → cell buf i = cell buf' i := by
  refine ⟨BitVec.eq_of_toNat_eq (h.length_eq.trans h'.length_eq.symm), fun i hi => ?_⟩
  have hi' : i < ts.length := h.length_eq ▸ hi
  rw [h.cells i hi', h'.cells i hi']

/-- Copied but for one cell, a sequence is held with that trit replaced. -/
theorem Holds.set {buf buf' : TritBuf} {len len' : Word} {ts : List Trit} (h : Holds buf len ts) (hlen : len' = len)
    {q : Nat} {x : Trit} (hx : cell buf' q = tritCode x)
    (hc : ∀ k, k < ts.length → k ≠ q → cell buf' k = cell buf k) : Holds buf' len' (ts.set q x) := by
  refine ⟨by rw [hlen, h.length_eq, List.length_set], fun i hi => ?_⟩
  have hi' : i < ts.length := by simpa using hi
  by_cases hq : q = i
  · subst hq
    rw [hx, List.getElem_set_self]
  · rw [List.getElem_set_ne hq, hc i hi' (Ne.symm hq), h.cells i hi']

/-- Every result but a carrier command's has at most 8 trits, and so fits `R` (R6, R35). -/
theorem Inv.holds_result {s t : State} {ts : List Trit} (hI : Inv s) (hl : ts.length ≤ 8)
    (h : completeVec ts s = .next t) : Holds t.r t.rLen ts := holds_of_completeVec hI (hI.result_le (.inl hl)) h

/-- Moved into `A`, it is the operand of the next command, in the same build. -/
theorem ReloadsA.holds_result {s t s2 : State} {ts : List Trit} (h2 : ReloadsA t s2) (hI : Inv s)
    (hl : ts.length ≤ 8) (h : completeVec ts s = .next t) : HoldsA s2 ts ∧ s2.cfg = s.cfg :=
  h2.holdsA hI (hI.result_le (.inl hl)) h

/-! ## Pads and frames that the checks accept -/

section
variable {s : State} {core ts : List Trit}

theorem exec_unpad_of_padded (h : HoldsA s (padTrits s.cfg core)) (hl : core.length = 4) :
    exec .unpad s = completeVec core s := by
  rw [exec_unpad_of_holds h hl, if_neg (not_not.2 rfl), if_neg (not_not.2 rfl)]

theorem exec_decodeCore_of_padded (h : HoldsA s (padTrits s.cfg core)) (hl : core.length = 4) :
    exec .decodeCore s = completeVal (balValue core + 40) s := by
  rw [exec_decodeCore_of_holds h hl, if_neg (not_not.2 rfl), if_neg (not_not.2 rfl)]

theorem exec_unframe_of_framed (h : HoldsA s (frameTrits s.cfg ts)) (hl : ts.length = 6) :
    exec .unframe s = completeVec ts s :=
  (execUnframe_of_holds hl h).trans ((if_neg (not_not.2 rfl)).trans (if_neg (not_not.2 rfl)))

end

/-- The pad check of `UNPAD` and `DECODE_CORE` failing at position 0 or 5 (R132, R134). -/
theorem pad_mismatch {s : State} {x c0 c1 c2 c3 y : Trit} (hA : HoldsA s [x, c0, c1, c2, c3, y]) :
    (x ≠ s.cfg.padTrit → exec .unpad s = .next (failed s 4 false 0) ∧ exec .decodeCore s = .next (failed s 4 false 0)) ∧
    (x = s.cfg.padTrit → y ≠ s.cfg.padTrit →
      exec .unpad s = .next (failed s 4 false 5) ∧ exec .decodeCore s = .next (failed s 4 false 5)) := by
  obtain ⟨h0, h5, _⟩ := withTribble_of_six hA fun core => completeVec core s
  obtain ⟨h0', h5', _⟩ := withTribble_of_six hA fun core => completeVal (balValue core + 40) s
  exact ⟨fun hx => ⟨h0 hx, h0' hx⟩, fun hx hy => ⟨h5 hx hy, h5' hx hy⟩⟩

theorem ends_set_last (a b x : Trit) (mid : List Trit) :
    ([a] ++ mid ++ [b]).set (mid.length + 1) x = [a] ++ mid ++ [x] := by simp

/-- The frame check of `UNFRAME` failing at position 0 or 7 (R162). -/
theorem frame_mismatch {s : State} {x y : Trit} {mid : List Trit} (hl : mid.length = 6)
    (hA : HoldsA s ([x] ++ mid ++ [y])) :
    (x ≠ s.cfg.frameTrit → exec .unframe s = .next (failed s 5 false 0)) ∧
    (x = s.cfg.frameTrit → y ≠ s.cfg.frameTrit → exec .unframe s = .next (failed s 5 false 7)) :=
  have hends := execUnframe_of_holds hl hA
  ⟨fun hx => hends.trans (if_pos hx), fun hx hy => hends.trans ((if_neg (not_not.2 hx)).trans (if_pos hy))⟩

/-! ## What a command that completed has completed with -/

section
variable {i : Instr} {s t : State}

theorem enc4_completed (h : exec .enc4 s = .next t) (hv : t.valid = true) :
    0 ≤ s.valIn.toInt ∧ s.valIn.toInt ≤ 80 := by
  obtain ⟨_, he⟩ | ⟨h0, h80, _⟩ := withCoreValue_cases s fun v => completeVec (balDigits (v - 40)) s
  · cases he.symm.trans h; nomatch hv
  · exact ⟨h0, h80⟩

/-- `ENCODE_CORE` and `PAD` complete with a padded core (R131, R133). -/
theorem padding_completed (hi : i = .encodeCore ∨ i = .pad) (h : exec i s = .next t) (hv : t.valid = true) :
    ∃ core, core.length = 4 ∧ completeVec (padTrits s.cfg core) s = .next t := by
  obtain rfl | rfl := hi
  · obtain ⟨_, he⟩ | ⟨_, _, he⟩ :=
      withCoreValue_cases s fun v => completeVec (padTrits s.cfg (balDigits (v - 40))) s
    · cases he.symm.trans h; nomatch hv
    · exact ⟨_, balDigits_length _, he.symm.trans h⟩
  · obtain ⟨_, he⟩ | ⟨_, _, _, he⟩ | ⟨core, hl, _, he⟩ :=
      withUnit_cases 4 s fun ts => completeVec (padTrits s.cfg ts) s
    · cases he.symm.trans h; nomatch hv
    · cases he.symm.trans h; nomatch hv
    · exact ⟨core, hl, he.symm.trans h⟩

/-- `FRAME` completes with a framed tribble (R161). -/
theorem frame_completed (h : exec .frame s = .next t) (hv : t.valid = true) :
    ∃ ts, ts.length = 6 ∧ completeVec (frameTrits s.cfg ts) s = .next t := by
  obtain ⟨_, he⟩ | ⟨_, _, _, he⟩ | ⟨ts, hl, _, he⟩ :=
    withUnit_cases 6 s fun ts => completeVec (frameTrits s.cfg ts) s
  · cases he.symm.trans h; nomatch hv
  · cases he.symm.trans h; nomatch hv
  · exact ⟨ts, hl, he.symm.trans h⟩

/-- `UNPAD` and `DECODE_CORE` share their checks: both fail with one report, or both accept one padded core. -/
theorem unpad_decodeCore_cases (s : State) :
    (∃ t, exec .unpad s = .next t ∧ t.valid = false ∧ exec .decodeCore s = .next t) ∨
    (∃ core, core.length = 4 ∧ HoldsA s (padTrits s.cfg core)) := by
  have both {t : State} (hv : t.valid = false) (h : ∀ k, withTribble s k = .next t) :
      ∃ t, exec .unpad s = .next t ∧ t.valid = false ∧ exec .decodeCore s = .next t := 
    ⟨t, h fun core => completeVec core s, hv, h fun core => completeVal (balValue core + 40) s⟩
  obtain ⟨hn, _⟩ | ⟨hn, i, hi, _⟩ | ⟨x, core, y, hl, hA, hxy⟩ := withTribble_cases s fun core => completeVec core s
  · exact .inl (both rfl fun _ => withUnit_of_length hn _)
  · exact .inl (both rfl fun _ => withUnit_of_reserved hn hi _)
  · have hk := withTribble_of_holds hl hA
    obtain ⟨hx, _⟩ | ⟨hx, hy, _⟩ | ⟨rfl, rfl, _⟩ := hxy
    · exact .inl (both rfl fun k => (hk k).trans (if_pos hx))
    · exact .inl (both rfl fun k => (hk k).trans ((if_neg (not_not.2 hx)).trans (if_pos hy)))
    · exact .inr ⟨core, hl, hA⟩

end

end Sys2Proof.Machine
end

section
/-! The laws over several commands: the conversion, the tribble and the frame codec, and the whole block. -/

namespace Sys2Proof.Machine

/-- Settles O38: each example fails, or passes, its first check. -/
theorem commandsRunOnResetOperands : Obligations.CommandsRunOnResetOperands := by
  intro c
  obtain ⟨_, hcapply⟩ := capplyOverlaysThePattern
  obtain ⟨_, hunframe⟩ := unframeChecksAndStripsTheFrameTrits
  obtain ⟨hempty, _⟩ := hcapply (State.resetOf c)
  obtain ⟨hlength, _⟩ := hunframe (State.resetOf c)
  refine ⟨hempty rfl, hlength (by decide : (0#32).toNat ≠ 8), ?_⟩
  have hval : (State.resetOf c).valIn.toInt = 0 := rfl
  have hdigits : balDigits (0 - 40) = [.minus, .minus, .minus, .minus] := rfl
  rw [exec_enc4_of_range (by omega) (by omega), hval, hdigits]
  exact completeVec_eq_completed _ _

/-- Settles O39: the digits held in `A` are those `ENC4` wrote, and digits and value are inverse. -/
theorem conversionRoundTrip : Obligations.ConversionRoundTrip := by
  refine ⟨fun s hI h0 h80 => ?_, fun s d0 d1 d2 d3 hA => ?_⟩
  · have henc := exec_enc4_of_range h0 h80
    refine ⟨_, henc, rfl, fun s2 h2 => ?_⟩
    have hA2 := (h2.holds_result hI (by simp) rfl).1
    exact ⟨_, (exec_dec4_of_holds hA2 (balDigits_length _)).trans (completeVal_balDigits h0 h80 s2), rfl, rfl⟩
  · refine ⟨_, exec_dec4_of_holds hA rfl, rfl, fun s2 hI2 hval => ?_⟩
    obtain ⟨h0, h80⟩ := balValue_core_bounds (ts := [d0, d1, d2, d3]) rfl
    have hv : s2.valIn.toInt = balValue [d0, d1, d2, d3] + 40 := by rw [hval]; exact toInt_ofNat_core h0 h80
    have henc := exec_enc4_of_range (s := s2) (by omega) (by omega)
    rw [hv, Int.add_sub_cancel, balDigits_balValue rfl] at henc
    have hR := hI2.holds_result (ts := [d0, d1, d2, d3]) (by simp) rfl
    obtain ⟨_, hcells⟩ := hR.agree hA
    exact ⟨_, henc, rfl, rfl, hcells⟩

/-- Settles O40: a padded core decodes to its value, one changed pad is the mismatch at its position, and a changed
core is another value. -/
theorem tribbleRoundTripAndPadDetection : Obligations.TribbleRoundTripAndPadDetection := by
  refine ⟨fun s hI h0 h80 => ?_, fun i s t hi hI ht hv s2 x q hq hx hcfg hlen hxq hrest => ?_,
    fun s s' c c' hc hc' hne hcfg hA hA' => ⟨?_, ?_⟩⟩
  · refine ⟨_, exec_encodeCore_of_range h0 h80, rfl, fun s2 h2 => ?_⟩
    obtain ⟨hA2, hcfg⟩ := h2.holds_result hI (by simp) rfl
    rw [← hcfg] at hA2
    have hdec := exec_decodeCore_of_padded hA2 (balDigits_length _)
    exact ⟨_, hdec.trans (completeVal_balDigits h0 h80 s2), rfl, rfl⟩
  · obtain ⟨core, hl, ht⟩ := padding_completed hi ht hv
    obtain ⟨c0, c1, c2, c3, rfl⟩ := four_trits hl
    have hR := hI.holds_result (by simp) ht
    have hA2 := hR.set hlen hxq hrest
    rw [← hcfg] at hx hA2
    obtain rfl | rfl := hq
    · exact (pad_mismatch hA2).1 hx
    · exact (pad_mismatch hA2).2 rfl hx
  · rw [← hcfg] at hA'
    exact ⟨_, exec_unpad_of_padded hA' hc', rfl⟩
  · rw [← hcfg] at hA'
    refine ⟨_, _, exec_decodeCore_of_padded hA hc, exec_decodeCore_of_padded hA' hc', rfl, rfl, fun hval => hne ?_⟩
    obtain ⟨h0, h80⟩ := balValue_core_bounds hc
    obtain ⟨h0', h80'⟩ := balValue_core_bounds hc'
    have hint := congrArg BitVec.toInt hval
    simp only [State.report_rVal, State.putVal_rVal, toInt_ofNat_core h0 h80, toInt_ofNat_core h0' h80'] at hint
    exact balValue_inj hc hc' (by omega)

/-- Settles O41: both routes complete with the same padded digits. -/
theorem encodeCoreIsEnc4ThenPad : Obligations.EncodeCoreIsEnc4ThenPad := by
  intro s t s2 hI ht hv h2
  obtain ⟨h0, h80⟩ := enc4_completed ht hv
  have hdigits := (exec_enc4_of_range h0 h80).symm.trans ht
  obtain ⟨hA2, hcfg⟩ := h2.holds_result hI (by simp) hdigits
  have hpad := exec_pad_of_holds hA2 (balDigits_length _)
  rw [hcfg] at hpad
  have hlen : (padTrits s.cfg (balDigits (s.valIn.toInt - 40))).length ≤ 8 := by simp
  obtain ⟨hr, hcells⟩ := (h2.inv.holds_result hlen rfl).agree (hI.holds_result hlen rfl)
  exact ⟨_, _, hpad, exec_encodeCore_of_range h0 h80, rfl, rfl, hr, hcells⟩

/-- Settles O42: one check, and `DEC4` of the core that `UNPAD` strips. -/
theorem decodeCoreIsUnpadThenDec4 : Obligations.DecodeCoreIsUnpadThenDec4 := by
  intro s t hI ht
  obtain ⟨u, hu, hv, hdec⟩ | ⟨core, hl, hA⟩ := unpad_decodeCore_cases s
  · cases hu.symm.trans ht
    refine ⟨fun _ => hdec, fun hv' => ?_⟩
    exact nomatch hv.symm.trans hv'
  · have hcore : completeVec core s = .next t := (exec_unpad_of_padded hA hl).symm.trans ht
    refine ⟨fun hv => ?_, fun _ s2 h2 => ?_⟩
    · cases hcore; nomatch hv
    · have hA2 := (h2.holds_result hI (by omega) hcore).1
      exact ⟨_, _, exec_dec4_of_holds hA2 hl, exec_decodeCore_of_padded hA hl, rfl, rfl, rfl⟩

/-- Settles O44: a changed end is found by `UNFRAME`; a changed pad passes it and is found by the pad check. -/
theorem frameDetectsItsEndsOnly : Obligations.FrameDetectsItsEndsOnly := by
  refine ⟨fun s t hI ht hv s2 x q hq hx hcfg hlen hxq hrest => ?_, fun s x c0 c1 c2 c3 y hI hA => ?_⟩
  · obtain ⟨ts, hl, ht⟩ := frame_completed ht hv
    have hlen8 : (frameTrits s.cfg ts).length = 8 := by simp [hl]
    have hA2 := (hI.holds_result hlen8.le ht).set hlen hxq (by rwa [hlen8])
    rw [← hcfg] at hx hA2
    obtain rfl | rfl := hq
    · exact (frame_mismatch hl hA2).1 hx
    · have h7 : ts.length + 1 = 7 := by rw [hl]
      rw [← h7, frameTrits, ends_set_last] at hA2
      exact (frame_mismatch hl hA2).2 rfl hx
  · have hun := exec_unframe_of_framed (ts := [x, c0, c1, c2, c3, y]) hA rfl
    refine ⟨_, hun, rfl, fun s2 h2 => ?_⟩
    have hA2 := (h2.holds_result hI (by simp) rfl).1
    have hcfg : s2.cfg = s.cfg := h2.cfg_eq
    rw [← hcfg]
    obtain ⟨hfirst, hlast⟩ := pad_mismatch hA2
    refine ⟨hfirst, hlast, fun hx hy => ?_⟩
    rw [hx, hy] at hA2
    have hpads : HoldsA s2 (padTrits s2.cfg [c0, c1, c2, c3]) := hA2
    exact ⟨_, _, exec_unpad_of_padded hpads rfl, exec_decodeCore_of_padded hpads rfl, rfl, rfl⟩

/-- Settles O47: each command's result is the operand that the next one accepts, and the digits come back. -/
theorem coreValueSurvivesTheWholeBlock : Obligations.CoreValueSurvivesTheWholeBlock := by
  intro s0 s1 s2 s3 t0 t1 t2 hI h0 h80 he0 h1 he1 h2 he2 h3
  have hd := balDigits_length (s0.valIn.toInt - 40)
  generalize hdigits : balDigits (s0.valIn.toInt - 40) = d at hd
  have hp : (padTrits s0.cfg d).length = 6 := by simp [hd]
  have henc := exec_encodeCore_of_range h0 h80
  rw [hdigits] at henc
  obtain ⟨hA1, hc1⟩ := h1.holds_result hI (by omega) (henc.symm.trans he0)
  have hframe := (exec_frame_of_holds hA1 hp).symm.trans he1
  obtain ⟨hA2, hc2⟩ := h2.holds_result h1.inv (by simp [hd]) hframe
  rw [← hc2] at hA2
  have hunframe := (exec_unframe_of_framed hA2 hp).symm.trans he2
  obtain ⟨hA3, hc3⟩ := h3.holds_result h2.inv (by omega) hunframe
  rw [← hc1, ← hc2, ← hc3] at hA3
  have hdec := exec_decodeCore_of_padded hA3 hd
  rw [← hdigits] at hdec
  exact ⟨_, hdec.trans (completeVal_balDigits h0 h80 s3), rfl, rfl⟩

end Sys2Proof.Machine
end

section
/-! Layer under R164 and R184: the units of a framed stream, and a pattern removed again. -/

namespace Sys2Proof.Machine

/-! ## Units of a framed stream (R164) -/

theorem framedStream_cons (cfg : Cfg) (core : List Trit) (cores : List (List Trit)) :
    framedStream cfg (core :: cores) = frameTrits cfg (padTrits cfg core) ++ framedStream cfg cores :=
  List.flatMap_cons

/-- Unit `k` of a stream begins at `8k`. -/
theorem framedStream_drop (cfg : Cfg) {cores : List (List Trit)} (h : ∀ c ∈ cores, c.length = 4) (k : Nat) :
    (framedStream cfg cores).drop (8 * k) = framedStream cfg (cores.drop k) := by
  induction k generalizing cores with
  | zero => rfl
  | succ k ih =>
    cases cores with
    | nil => simp [framedStream]
    | cons core cores =>
      have hunit : (frameTrits cfg (padTrits cfg core)).length = 8 := by
        simp [h core List.mem_cons_self]
      have hsplit : 8 * (k + 1) = (frameTrits cfg (padTrits cfg core)).length + 8 * k := by omega
      rw [framedStream_cons, hsplit, List.drop_length_add_append, List.drop_succ_cons]
      exact ih fun c hc => h c (List.mem_cons_of_mem _ hc)

/-- A window that begins in unit `k` and ends in unit `k + 1` lies in these two units, whose cores have four trits
each. -/
theorem framedStream_window (cfg : Cfg) {cores : List (List Trit)} (h : ∀ c ∈ cores, c.length = 4) {k : Nat}
    (hk : k + 2 ≤ cores.length) : ∃ c0 c1 c2 c3 d0 d1 d2 d3 : Trit, ∃ later : List Trit, ∀ j,
      (framedStream cfg cores).drop (8 * k + j) = ([cfg.frameTrit, cfg.padTrit, c0, c1, c2, c3, cfg.padTrit,
        cfg.frameTrit, cfg.frameTrit, cfg.padTrit, d0, d1, d2, d3, cfg.padTrit, cfg.frameTrit] ++ later).drop j := by
  have hdrop : cores.drop k = cores[k] :: cores[k + 1] :: cores.drop (k + 2) := by
    rw [List.drop_eq_getElem_cons (by omega), List.drop_eq_getElem_cons (by omega)]
  obtain ⟨c0, c1, c2, c3, hc⟩ := four_trits (h cores[k] (List.getElem_mem _))
  obtain ⟨d0, d1, d2, d3, hd⟩ := four_trits (h cores[k + 1] (List.getElem_mem _))
  refine ⟨c0, c1, c2, c3, d0, d1, d2, d3, framedStream cfg (cores.drop (k + 2)), fun j => ?_⟩
  rw [← List.drop_drop, framedStream_drop cfg h, hdrop, framedStream_cons, framedStream_cons, hc, hd]
  rfl

/-! ## Removal of a pattern (R103, R184) -/

/-- What one lane's function undoes, the overlay's does. -/
theorem overlayWith_overlayWith {f g : Trit → Trit → Trit} (hgf : ∀ a b, g (f a b) b = a) (x p : List Trit) :
    overlayWith g (overlayWith f x p) p = x := by
  refine List.ext_getElem? fun i => ?_
  rw [overlayWith_getElem?, overlayWith_getElem?, Option.map_map]
  simp [Function.comp_def, hgf]

/-- Removal is overlay of the negated pattern, lane by lane (R102, R181). -/
theorem unoverlay_eq_overlay_map_negTrit (x p : List Trit) : unoverlay x p = overlay x (p.map negTrit) := by
  have hpat (i : Nat) : patternTrit (p.map negTrit) i = negTrit (patternTrit p i) := by
    unfold patternTrit
    rw [List.length_map, List.getElem?_map]
    cases p[i % p.length]? <;> rfl
  refine List.ext_getElem? fun i => ?_
  rw [unoverlay, overlay, overlayWith_getElem?, overlayWith_getElem?, hpat]
  rfl

/-- Two carrier commands whose lanes undo each other, the second on the result of the first moved into `A`: the cells
of `A` come back. -/
theorem carrier_round_trip {i j : Instr} {f g : Trit → Trit → Trit} (hgf : ∀ a b, g (f a b) b = a)
    (hi : ∀ {s : State} {x p : List Trit}, HoldsA s x → HoldsB s p → p ≠ [] →
      exec i s = completeVec (overlayWith f x p) s)
    (hj : ∀ {s : State} {x p : List Trit}, HoldsA s x → HoldsB s p → p ≠ [] →
      exec j s = completeVec (overlayWith g x p) s)
    {s : State} {x p : List Trit} (hI : Inv s) (hA : HoldsA s x) (hB : HoldsB s p) (hp : p ≠ []) :
    ∃ t, exec i s = .next t ∧ t.valid = true ∧
      ∀ s2 : State, ReloadsA t s2 → s2.bLen = s.bLen → s2.b = s.b →
        ∃ u, exec j s2 = .next u ∧ u.valid = true ∧ u.rLen = s.aLen ∧
          ∀ k, k < x.length → cell u.r k = cell s.a k := by
  refine ⟨_, hi hA hB hp, rfl, fun s2 h2 hbLen hb => ?_⟩
  obtain ⟨hA2, hcfg⟩ := h2.holdsA hI ((overlayWith_length f x p).trans_le (hI.length_le hA)) rfl
  have hB2 : HoldsB s2 p := by rw [HoldsB, hb, hbLen]; exact hB
  have hback := hj hA2 hB2 hp
  rw [overlayWith_overlayWith hgf] at hback
  obtain ⟨hlen, hcells⟩ := (holds_of_completeVec h2.inv (hcfg ▸ hI.length_le hA) rfl).agree hA
  refine ⟨_, hback, rfl, hlen, fun k hk => hcells k ?_⟩
  rw [hlen, hA.length_eq]
  exact hk

end Sys2Proof.Machine
end

section
/-! The laws of the frame codec over a stream and of the carrier (42_frame_wrapper.md section 2, 43_carrier.md
section 2). -/

namespace Sys2Proof.Machine

/-- Settles O45: the two windows written out, and the ends that `UNFRAME` meets there. -/
theorem misalignedWindowLosesSync : Obligations.MisalignedWindowLosesSync := by
  intro s cores k hcores hk
  obtain ⟨c0, c1, c2, c3, d0, d1, d2, d3, later, hwindow⟩ := framedStream_window s.cfg hcores hk
  rw [hwindow 1, hwindow 7]
  refine ⟨fun hne hA => ?_, fun hne hA => ?_, fun heq hA => ?_, ⟨c0, c1, c2, c3, rfl⟩, ⟨d0, d1, d2, d3, rfl⟩⟩
  · have hlate : HoldsA s
        ([s.cfg.padTrit] ++ [c0, c1, c2, c3, s.cfg.padTrit, s.cfg.frameTrit] ++ [s.cfg.frameTrit]) := hA
    exact (frame_mismatch rfl hlate).1 hne
  · have hearly : HoldsA s
        ([s.cfg.frameTrit] ++ [s.cfg.frameTrit, s.cfg.padTrit, d0, d1, d2, d3] ++ [s.cfg.padTrit]) := hA
    exact (frame_mismatch rfl hearly).2 rfl hne
  · have hlate : HoldsA s
        ([s.cfg.padTrit] ++ [c0, c1, c2, c3, s.cfg.padTrit, s.cfg.frameTrit] ++ [s.cfg.frameTrit]) := hA
    rw [heq] at hlate
    exact ⟨_, exec_unframe_of_framed hlate rfl, rfl⟩

/-- Settles O43: in each lane subtracting a trit is adding its negation, and neither command reads or writes more of
`B` than the pattern. -/
theorem cremoveIsCapplyOfTheNegatedPattern : Obligations.CremoveIsCapplyOfTheNegatedPattern := by
  intro s s' x p hA hB hp hB' hs'
  obtain ⟨b, rfl⟩ : ∃ b, s' = s.putB b := ⟨_, hs'⟩
  have hA' : HoldsA (s.putB b) x := hA
  refine ⟨_, exec_cremove_of_holds hA hB hp, rfl, ?_⟩
  rw [exec_capply_of_holds hA' hB' (by simpa using hp), unoverlay_eq_overlay_map_negTrit]
  rfl

/-- Settles O46: the lanes undo each other; a wrong pattern and a shifted stream are written out. -/
theorem carrierRoundTrip : Obligations.CarrierRoundTrip := by
  refine ⟨fun x p _ => ⟨overlayWith_overlayWith subMod3_addMod3 x p, overlayWith_overlayWith addMod3_subMod3 x p⟩,
    fun s x p hI hA hB hp => ?_, fun s x p hI hA hB hp => ?_, ?_, ?_⟩
  · exact carrier_round_trip subMod3_addMod3 exec_capply_of_holds exec_cremove_of_holds hI hA hB hp
  · exact carrier_round_trip addMod3_subMod3 exec_cremove_of_holds exec_capply_of_holds hI hA hB hp
  · exact ⟨[.zero], [.plus], [.minus], by decide⟩
  · exact ⟨[.zero, .zero], [.plus, .zero], by decide⟩

end Sys2Proof.Machine
end

section
/-! Layer under the statements about the host's pseudo-accesses (30_encoding.md R78): what a load leaves in a buffer,
and a host that reads words of `R` and writes them back. -/

namespace Sys2Proof.Machine

/-! ## A sequence loaded into a buffer -/

theorem cell_tritCodes {ts : List Trit} {i : Nat} (h : i < ts.length) : cell (tritCodes ts) i = tritCode ts[i] := by
  simp [cell, tritCodes, h]

/-- The cells after the words of a sequence have been stored over a buffer that has room for it: the sequence, `0b00`
to the end of its last word, and the old cells behind it. -/
theorem cells_of_load {buf old : TritBuf} {ts : List Trit} {cap : Nat} (hold : old.length = cap) (hl : ts.length ≤ cap)
    (h : ∀ i, cell buf i =
      if i < 16 * windowWords ts.length ∧ i < cap then cell (tritCodes ts) i else cell old i) :
    (∀ (i : Nat) (hi : i < ts.length), cell buf i = tritCode ts[i]) ∧
    (∀ i, ts.length ≤ i → i < 16 * ((ts.length + 15) / 16) → cell buf i = 0b00#2) ∧
    (∀ i, 16 * ((ts.length + 15) / 16) ≤ i → cell buf i = cell old i) := by
  unfold windowWords at h
  refine ⟨fun i hi => ?_, fun i hlo hhi => ?_, fun i hi => ?_⟩
  · rw [h, if_pos ⟨by omega, by omega⟩, cell_tritCodes hi]
  · rw [h]
    split_ifs with hcap
    · exact cell_of_length_le (by rw [tritCodes, List.length_map]; exact hlo)
    · exact cell_of_length_le (by omega)
  · rw [h, if_neg (by omega)]

/-! ## Words of `R` read and written back -/

/-- The host has read more words (assumption 4). -/
def State.logReads (ws : List Word) (s : State) : State := { s with readLog := s.readLog ++ ws }

theorem State.logReads_nil (s : State) : s.logReads [] = s := by
  rw [State.logReads, List.append_nil]

theorem State.logRead_logReads (s : State) (ws : List Word) (w : Word) :
    (s.logReads ws).logRead w = s.logReads (ws ++ [w]) := by
  rw [State.logRead, State.logReads, State.logReads, List.append_assoc]

theorem Inv.logReads {s : State} (h : Inv s) (ws : List Word) : Inv (s.logReads ws) := { h with }

/-- A read of data word `k` of `R`. -/
theorem hostEvent_read_rData {s : State} (hc : s.cfg.wf = true) {k : Nat} (hk : k < windowWords s.cfg.nMax) :
    hostEvent (.read (regAddr (.rData k))) s = .next (s.logRead (packWord s.r k)) := by
  rw [hostEvent, hostRead, regAt_rData hc hk]; rfl

/-- A write of data word `k` of `A`. -/
theorem hostEvent_write_aData {s : State} (hc : s.cfg.wf = true) {k : Nat} (hk : k < windowWords s.cfg.nMax)
    (w : Word) : hostEvent (.write (regAddr (.aData k)) w) s = .next (s.putA (storeWord s.a k w)) := by
  rw [hostEvent, hostWrite, regAt_aData hc hk]; rfl

theorem runEvents_cons {e : HostEvent} {s t : State} (es : List HostEvent) (h : hostEvent e s = .next t) :
    runEvents (e :: es) s = runEvents es t := by rw [runEvents, h]

/-- Reads of any words of `R`. -/
theorem runEvents_read_rData {s : State} (hc : s.cfg.wf = true) {ks : List Nat}
    (hks : ∀ k ∈ ks, k < windowWords s.cfg.nMax) :
    runEvents (ks.map fun k => .read (regAddr (.rData k))) s = .next (s.logReads (ks.map (packWord s.r))) := by
  induction ks using List.reverseRecOn with
  | nil => exact congrArg Host.Outcome.next s.logReads_nil.symm
  | append_singleton ks k ih =>
    have hk : k < windowWords s.cfg.nMax := hks k (by simp)
    have hread := hostEvent_read_rData (s := s.logReads (ks.map (packWord s.r))) hc hk
    rw [State.logRead_logReads] at hread
    rw [List.map_append, runEvents_append _ (ih fun k' hk' => hks k' (by simp [hk'])), List.map_singleton,
      runEvents_cons _ hread, List.map_append]
    rfl

/-- The accesses that copy data word `k` of `R`, whose word is `w`, into `A` (R78). -/
def copyWordEvents (w : Word) (k : Nat) : List HostEvent :=
  [.read (regAddr (.rData k)), .write (regAddr (.aData k)) w]

/-- The first `n` words of `R`, each read and written to the `A` window. -/
theorem runEvents_copyWords {s : State} (hc : s.cfg.wf = true) {n : Nat} (hn : n ≤ windowWords s.cfg.nMax) :
    ∃ buf : TritBuf, buf.length = s.a.length ∧
      (∀ i, cell buf i =
        if i < 16 * n ∧ i < s.a.length then wordCode (packWord s.r (i / 16)) (i % 16) else cell s.a i) ∧
      runEvents ((List.range n).flatMap fun k => copyWordEvents (packWord s.r k) k) s =
        .next ((s.putA buf).logReads ((List.range n).map (packWord s.r))) := by
  induction n with
  | zero => exact ⟨s.a, rfl, by simp, congrArg Host.Outcome.next s.logReads_nil.symm⟩
  | succ n ih =>
    obtain ⟨buf, hlen, hcells, hrun⟩ := ih (by omega)
    refine ⟨storeWord buf n (packWord s.r n), by rw [storeWord_length, hlen], cell_storeWord_succ hlen hcells, ?_⟩
    have hk : n < windowWords s.cfg.nMax := by omega
    have hread := hostEvent_read_rData (s := (s.putA buf).logReads ((List.range n).map (packWord s.r))) hc hk
    rw [State.logRead_logReads] at hread
    have hwrite := hostEvent_write_aData
      (s := (s.putA buf).logReads ((List.range n).map (packWord s.r) ++ [packWord s.r n])) hc hk (packWord s.r n)
    rw [List.range_succ, List.flatMap_append, runEvents_append _ hrun, List.flatMap_singleton, copyWordEvents,
      runEvents_cons _ hread, List.map_append]
    exact runEvents_cons [] hwrite

/-- The cells that `mov_ra j, n` copies, as the host writes them. -/
theorem cell_sliceCells {r : TritBuf} {j n i : Nat} (h : i < n) : cell (sliceCells r j n) i = cell r (j + i) := by
  have hi : i < 16 * windowWords n := by unfold windowWords; omega
  simp [cell, sliceCells, hi, h]

theorem wordsHolding_nodup (j n : Nat) : (wordsHolding j n).Nodup := List.nodup_range.filter _

end Sys2Proof.Machine
end

section
/-! The statements about the host's pseudo-accesses (30_encoding.md R78). -/

namespace Sys2Proof.Machine

/-- Settles O48: the length, then the words of the sequence's codes. -/
theorem loadPseudoAccessesLoadTheSequence : Obligations.LoadPseudoAccessesLoadTheSequence := by
  refine ⟨fun s ts hI hl => ?_, fun s ts hI hl => ?_⟩
  · obtain ⟨buf, hInv, hn, hcells, hrun⟩ := runEvents_loadA hI (tritCodes ts) hl
    obtain ⟨hseq, hpad, hlater⟩ := cells_of_load hI.a_length hl hcells
    exact ⟨_, hrun, ⟨hn, hseq⟩, hInv, rfl, hpad, hlater⟩
  · obtain ⟨buf, hInv, hn, hcells, hrun⟩ := runEvents_loadB hI (tritCodes ts) hl
    obtain ⟨hseq, hpad, hlater⟩ := cells_of_load hI.b_length hl hcells
    exact ⟨_, hrun, ⟨hn, hseq⟩, hInv, rfl, hpad, hlater⟩

/-- Settles O49: `R_LEN` read and written to `A_LEN`, then word after word; `A` and `R` have one capacity. -/
theorem movRaReloadsTheResult : Obligations.MovRaReloadsTheResult := by
  intro s hI
  let s1 : State := (s.logRead s.rLen).putALen s.rLen
  have hI1 : Inv s1 := (hI.logRead s.rLen).putALen hI.rLen_le
  have hread : hostEvent (.read (regAddr .rLen)) s = .next (s.logRead s.rLen) := rfl
  have hwrite : hostEvent (.write (regAddr .aLen) s.rLen) (s.logRead s.rLen) = .next s1 :=
    if_neg (not_lt.2 hI.rLen_le)
  have hle := hI.rLen_le
  obtain ⟨buf, hlen, hcells, hrun⟩ := runEvents_copyWords hI1.cfg_wf (n := windowWords s.rLen.toNat)
    (show windowWords s.rLen.toNat ≤ windowWords s.cfg.nMax by unfold windowWords; omega)
  have hcopied (i : Nat) (hi : i < 16 * ((s.rLen.toNat + 15) / 16)) : cell buf i = cell s.r i := by
    by_cases ha : i < s.a.length
    · have hsplit : 16 * (i / 16) + i % 16 = i := by omega
      rw [hcells, if_pos ⟨hi, ha⟩, wordCode_packWord _ _ _ (by omega), hsplit]
      rfl
    · have hr : s.r.length ≤ i := by rw [hI.r_length, ← hI.a_length]; exact not_lt.1 ha
      rw [cell_of_length_le (hlen.trans_le (not_lt.1 ha)), cell_of_length_le hr]
  refine ⟨(s1.putA buf).logReads ((List.range (windowWords s.rLen.toNat)).map (packWord s.r)), ?_,
    ⟨(hI1.putA hlen).logReads _, rfl, rfl, fun i hi => hcopied i (by omega)⟩, hcopied, fun i hi => ?_, rfl, rfl⟩
  · exact (runEvents_cons _ hread).trans ((runEvents_cons _ hwrite).trans hrun)
  · exact (hcells i).trans (if_neg fun h => absurd h.1 (not_lt.2 hi))

/-- Settles O50: the words that hold the slice are read, then the slice is loaded as any sequence of cells is. -/
theorem movRaSliceCopiesTheCells : Obligations.MovRaSliceCopiesTheCells := by
  refine fun s j n hI => ⟨fun hle => ?_, fun hlt => if_neg (not_le.2 hlt)⟩
  have hcap := hI.rLen_le
  have hwords : ∀ k ∈ wordsHolding j n, k < windowWords s.cfg.nMax := by
    intro k hk
    obtain ⟨i, hi, rfl⟩ := mem_wordsHolding.1 hk
    unfold windowWords
    omega
  have hreads := runEvents_read_rData hI.cfg_wf hwords
  have hn : n ≤ s.cfg.nMax := by omega
  obtain ⟨buf, hInv, haLen, hcells, hrun⟩ := runEvents_loadA (hI.logReads _) (sliceCells s.r j n) hn
  refine ⟨_, _, if_pos hle, (runEvents_append _ hreads).trans hrun, haLen, fun i hi => ?_, hInv, fun i hi => ?_, rfl,
    wordsHolding j n, wordsHolding_nodup j n, fun k => mem_wordsHolding, rfl⟩
  · have hi' : i < 16 * windowWords n ∧ i < s.cfg.nMax := by unfold windowWords; omega
    exact (hcells i).trans ((if_pos hi').trans (cell_sliceCells hi))
  · exact (hcells i).trans (if_neg fun h => absurd h.1 (not_lt.2 hi))

end Sys2Proof.Machine
end
